-- ==== Sys2Proof/Word.lean ====
section
/-! DEFINITION. The value types of `matrix_keyboard_scanner` that carry no behaviour: unsigned words of
stated width (spec `00_scope.md` R6) and the logical level of a serial line (R7). -/

namespace Sys2Proof

/-- A character, a column sample or a row pattern: 8 bits (`00_scope.md` R4 `CHAR_W`, `20_memory.md` R51). -/
abbrev Byte := BitVec 8

/-- A scan code: 6 bits, of which 0..48 are defined (`30_encoding.md` R60). -/
abbrev ScanCode := BitVec 6

/-- A row or column index: 3 bits, 0..7 (`10_state.md` R12, R27). -/
abbrev LineIdx := BitVec 3

/-- A command word: 20 bits, the operation in bits 19..16 and its operands in bits 15..0
(`30_encoding.md` R76). -/
abbrev CmdWord := BitVec 20

/-- Logical level of a serial line (`00_scope.md` R7); the pin carries the inverse. -/
inductive Level where
  | low
  | high
deriving DecidableEq, Repr, Inhabited

end Sys2Proof
end

