-- ==== Sys2Proof/Config.lean ====
section
/-! DEFINITION. What is fixed at build time: the constants of `00_scope.md` R4, the open parameters of R5
(the tables, `RESOLVE_POINT`, `COL_ORDER`, `LINE_RESET`), and the free values that stand for what the
spec leaves open. An `opaque` constant has no body: nothing can be proved about its value. -/

namespace Sys2Proof

/-- `RESOLVE_POINT` (`42_scanner.md` R127): when the character of a latched key is computed. Left OPEN by the
spec (D7): a statement about this hardware holds for both. -/
inductive ResolvePoint where
  | atLatch
  | endOfPass
deriving DecidableEq, Repr, Inhabited

/-- `COL_ORDER` (`42_scanner.md` R124): the end from which the eight columns of a row are taken. -/
inductive ColOrder where
  | ascending
  | descending
deriving DecidableEq, Repr, Inhabited

/-- One row of `CHARTAB` (`41_keytable.md` R103): `base` and `shifted` always, `ctrl` and `func` where the key
has such an entry. -/
structure CharRow where
  base : Byte
  shifted : Byte
  ctrl : Option Byte
  func : Option Byte
deriving DecidableEq, Repr, Inhabited

/-- The open parameters of `00_scope.md` R5, as plain data. `keymap` has one entry per position at index
`8 * row + col` (R65), each in 0..48 by its type (R101); `chartab` has one entry per scan code 0..48, `none`
where the code has no row (R103). What R104 fixes of `chartab` is `Params.wellFormed`. -/
structure Params where
  keymap : Vector (Fin 49) 64
  chartab : Vector (Option CharRow) 49
  resolvePoint : ResolvePoint
  colOrder : ColOrder
  lineReset : Level × Level
deriving DecidableEq, Repr

namespace Config

/-! The build-time constants (`00_scope.md` R4, R5). `ROWS` = `COLS` = 8, `CODE_MAX` = 48, `CHAR_W` = 8 and `DLY_W` = 16 are
widths, so they stand in the types: `LineIdx` and `keymap`'s 64 entries, `Fin 49`, `Byte`, the 16 bits of a delay. -/

/-- `RB_N`: ring buffer slots. -/
abbrev ringSlots : Nat := 10

/-- `SIG_DEL`: milliseconds every serial signal level is held. -/
def sigDel : BitVec 16 := 4#16

/-- `KEYRD_DEL`: the post-press delay in milliseconds (the spec's decision D27). -/
def keyrdDel : BitVec 16 := 115#16

/-- `BOOT_DEL`: the boot delay in milliseconds (the spec's decision D22). -/
def bootDel : BitVec 16 := 1000#16

/-- The byte the boot sequence sends (`45_dispatch.md` R185). -/
def bootByte : Byte := 0#8

/-! The modifier codes (`30_encoding.md` R61; the pairing is the spec's decision D5). -/

abbrev codeShift : ScanCode := 44#6
abbrev codeShiftLock : ScanCode := 45#6
abbrev codeCtrl : ScanCode := 46#6
abbrev codeFunc : ScanCode := 48#6

/-! Free values: no body, so no claim can rest on one of them. -/

/-- `KEYMAP` of this hardware, one scan code 0..48 for each index `8 * row + col`: not in the source
(N1, D12). -/
opaque freeKeymap : Nat → Fin 49

/-- The `CHARTAB` entries of this hardware that R104 does not fix, for each scan code (N2, D12). -/
opaque freeCharRow : Nat → CharRow

/-- `RESOLVE_POINT` of this hardware: OPEN (N8, D7). -/
opaque freeResolvePoint : ResolvePoint

/-- `LINE_RESET`: the levels of (data, clock) at reset, any pair (D23, U11). -/
opaque freeLineReset : Level × Level

/-- The answer of the key matrix to the n-th free column sample (`42_scanner.md` R122, U12). -/
opaque freeColumn : Nat → Byte

/-- The value left in `col_idx` by a scan pass: between operations it is not specified (`10_state.md` R27). -/
opaque freeColIdx : Nat → LineIdx

/-- The `CHARTAB` row of this hardware for scan code `code`: the entries of the table in `41_keytable.md` R104,
and a free row for every other code of 1..43. -/
def hardwareRow (code : Nat) : Option CharRow :=
  if code = 0 ∨ code = 34 ∨ code = 44 ∨ code = 45 ∨ code = 46 ∨ code = 48 then none
  else if code = 1 then some { freeCharRow 1 with base := 0x31#8, shifted := 0x21#8 }
  else if code = 24 then
    some { base := 0x73#8, shifted := 0x53#8, ctrl := some 0x13#8, func := some 0x81#8 }
  else if code = 47 then some { freeCharRow 47 with base := 0x20#8 }
  else some (freeCharRow code)

/-- The parameters of this hardware: every entry the spec fixes, and a free value for every one it leaves open.
`COL_ORDER` is the spec's default, ascending (D8). -/
def hardware : Params where
  keymap := Vector.ofFn fun i => freeKeymap i.val
  chartab := Vector.ofFn fun i => hardwareRow i.val
  resolvePoint := freeResolvePoint
  colOrder := .ascending
  lineReset := freeLineReset

end Config

/-- A slot number of the ring buffer: 0..9 (`30_encoding.md` R69; `10_state.md` R14 holds it in 4 bits, of which the
values 10..15 are never produced). -/
abbrev Slot := Fin Config.ringSlots

end Sys2Proof
end

