-- ==== Sys2Proof/Syntax.lean ====
section
/-! DEFINITION. The fifteen operations of `30_encoding.md` R75, one constructor per row of
`spec/opcode_table.json`. Each operand has exactly the width the spec gives it, so no term of `Instr` is out of
range. -/

namespace Sys2Proof

/-- The operations, in the order of their `op` numbers (`30_encoding.md` R77). -/
inductive Instr where
  /-- `DELAY ms` (`40_delay.md` R91) -/
  | delay (ms : BitVec 16)
  /-- `KEYCODE r, c` (`41_keytable.md` R102) -/
  | keycode (r c : LineIdx)
  /-- `RESOLVE code, s, c, f` (`41_keytable.md` R105) -/
  | resolve (code : ScanCode) (s c f : Bool)
  /-- `SCAN` (`42_scanner.md` R123) -/
  | scan
  /-- `CONSUME` (`42_scanner.md` R130) -/
  | consume
  /-- `PUSH ch` (`43_ringbuffer.md` R141) -/
  | push (ch : Byte)
  /-- `POP` (`43_ringbuffer.md` R143) -/
  | pop
  /-- `LINE_IDLE` (`44_transmitter.md` R161) -/
  | lineIdle
  /-- `SEND_START` (`44_transmitter.md` R162) -/
  | sendStart
  /-- `SEND_BIT b` (`44_transmitter.md` R164) -/
  | sendBit (b : Bool)
  /-- `SEND_BYTE v` (`44_transmitter.md` R166) -/
  | sendByte (v : Byte)
  /-- `SEND_KEY v` (`44_transmitter.md` R168) -/
  | sendKey (v : Byte)
  /-- `DRAIN` (`45_dispatch.md` R181) -/
  | drain
  /-- `DISPATCH` (`45_dispatch.md` R183) -/
  | dispatch
  /-- `BOOT` (`45_dispatch.md` R185) -/
  | boot
deriving DecidableEq, Repr

end Sys2Proof
end

