-- ==== Sys2Proof/WellFormed.lean ====
section
/-! DEFINITION. What is checked of terms whose types do not already exclude every bad value: a 20-bit word selects
an operation (`30_encoding.md` R77, R78), and the open tables meet the constraints of `41_keytable.md` R104. An `Instr`
needs no check: each operand's type is exactly the width of its field. -/

namespace Sys2Proof

/-- One row of the opcode map (`30_encoding.md` R77): a word `w` selects it iff `w AND mask == match`. -/
structure OpcodeRow where
  mnemonic : String
  pattern : CmdWord
  mask : CmdWord
deriving DecidableEq, Repr

/-- `w AND mask == match`. -/
def OpcodeRow.selects (row : OpcodeRow) (w : CmdWord) : Bool :=
  w &&& row.mask == row.pattern

/-- The row of an operation in the table of `30_encoding.md` R77. -/
def Instr.row : Instr → OpcodeRow
  | .delay _ => ⟨"DELAY", 0x00000#20, 0xF0000#20⟩
  | .keycode _ _ => ⟨"KEYCODE", 0x10000#20, 0xFFFC0#20⟩
  | .resolve _ _ _ _ => ⟨"RESOLVE", 0x20000#20, 0xFF8C0#20⟩
  | .scan => ⟨"SCAN", 0x30000#20, 0xFFFFF#20⟩
  | .consume => ⟨"CONSUME", 0x40000#20, 0xFFFFF#20⟩
  | .push _ => ⟨"PUSH", 0x50000#20, 0xFFF00#20⟩
  | .pop => ⟨"POP", 0x60000#20, 0xFFFFF#20⟩
  | .lineIdle => ⟨"LINE_IDLE", 0x70000#20, 0xFFFFF#20⟩
  | .sendStart => ⟨"SEND_START", 0x80000#20, 0xFFFFF#20⟩
  | .sendBit _ => ⟨"SEND_BIT", 0x90000#20, 0xFFFFE#20⟩
  | .sendByte _ => ⟨"SEND_BYTE", 0xA0000#20, 0xFFF00#20⟩
  | .sendKey _ => ⟨"SEND_KEY", 0xB0000#20, 0xFFF00#20⟩
  | .drain => ⟨"DRAIN", 0xC0000#20, 0xFFFFF#20⟩
  | .dispatch => ⟨"DISPATCH", 0xD0000#20, 0xFFFFF#20⟩
  | .boot => ⟨"BOOT", 0xE0000#20, 0xFFFFF#20⟩

/-- The opcode map as the spec prints it, one row per operation, in `op` order. -/
def opcodeTable : List OpcodeRow :=
  [Instr.row (.delay 0), Instr.row (.keycode 0 0), Instr.row (.resolve 0 false false false),
   Instr.row .scan, Instr.row .consume, Instr.row (.push 0), Instr.row .pop, Instr.row .lineIdle] ++
  [Instr.row .sendStart, Instr.row (.sendBit false), Instr.row (.sendByte 0), Instr.row (.sendKey 0),
   Instr.row .drain, Instr.row .dispatch, Instr.row .boot]

/-- A command word selects an operation (`30_encoding.md` R78): its `op` is not 15 and no must-be-zero bit of its row
is set. -/
def CmdWord.wellFormed (w : CmdWord) : Bool :=
  opcodeTable.any fun row => row.selects w

/-- The codes that have no row in `CHARTAB` (`41_keytable.md` R104): no key, code 34, and the four modifiers. -/
def rowlessCodes : List (Fin 49) := [0, 34, 44, 45, 46, 48]

/-- A parameter set meets the entries `41_keytable.md` R104 fixes: no row for `rowlessCodes`, the base and shifted
entries of code 1, all four of code 24, and the base entry of code 47. -/
def Params.wellFormed (p : Params) : Bool :=
  (rowlessCodes.all fun c => p.chartab[c].isNone) &&
  (match p.chartab[1] with
   | some row => row.base == 0x31#8 && row.shifted == 0x21#8
   | none => false) &&
  p.chartab[24] == some ⟨0x73#8, 0x53#8, some 0x13#8, some 0x81#8⟩ &&
  (match p.chartab[47] with
   | some row => row.base == 0x20#8
   | none => false)

/-- Every other code of 1..43 has a row ("an unshifted/shifted pair per key"), the further constraint of
`41_keytable.md` R104 that a model may assume of this hardware; the spec's test table TC does not meet it. -/
def Params.everyKeyHasRow (p : Params) : Bool :=
  (List.finRange 49).all fun c => rowlessCodes.contains c || p.chartab[c].isSome

end Sys2Proof
end

