-- ==== Sys2Proof/Decode.lean ====
section
/-! DEFINITION. The command word (`30_encoding.md` R76 to R78): the decoder, total on the 20-bit words and rejecting
by name, the encoder, and the fixed entry point the host reads a table row's word with. -/

namespace Sys2Proof

/-- Why a word selects no operation (`30_encoding.md` R78). -/
inductive DecodeError where
  /-- `op` is 15 -/
  | reservedOp
  /-- a bit of `arg` that the operation does not use is 1 -/
  | reservedArgBits
deriving DecidableEq, Repr

/-- `cmd[19:16]`. -/
def opField (w : CmdWord) : BitVec 4 := w.extractLsb' 16 4

/-- The operation `i`, provided that the bits of `w` it masks as fixed are as `pattern` has them. -/
def whenFixed (w mask pattern : CmdWord) (i : Instr) : Except DecodeError Instr :=
  if w &&& mask = pattern then .ok i else .error .reservedArgBits

/-- The operation a command word names, or why it names none (`30_encoding.md` R77, R78): `op` chooses the row, the
row's fixed bits are checked, and each operand is the slice of `arg` the table gives. -/
def decode (w : CmdWord) : Except DecodeError Instr :=
  match (opField w).toNat with
  | 0 => whenFixed w 0xF0000#20 0x00000#20 (.delay (w.extractLsb' 0 16))
  | 1 => whenFixed w 0xFFFC0#20 0x10000#20 (.keycode (w.extractLsb' 3 3) (w.extractLsb' 0 3))
  | 2 => whenFixed w 0xFF8C0#20 0x20000#20
      (.resolve (w.extractLsb' 0 6) (w.getLsbD 8) (w.getLsbD 9) (w.getLsbD 10))
  | 3 => whenFixed w 0xFFFFF#20 0x30000#20 .scan
  | 4 => whenFixed w 0xFFFFF#20 0x40000#20 .consume
  | 5 => whenFixed w 0xFFF00#20 0x50000#20 (.push (w.extractLsb' 0 8))
  | 6 => whenFixed w 0xFFFFF#20 0x60000#20 .pop
  | 7 => whenFixed w 0xFFFFF#20 0x70000#20 .lineIdle
  | 8 => whenFixed w 0xFFFFF#20 0x80000#20 .sendStart
  | 9 => whenFixed w 0xFFFFE#20 0x90000#20 (.sendBit (w.getLsbD 0))
  | 10 => whenFixed w 0xFFF00#20 0xA0000#20 (.sendByte (w.extractLsb' 0 8))
  | 11 => whenFixed w 0xFFF00#20 0xB0000#20 (.sendKey (w.extractLsb' 0 8))
  | 12 => whenFixed w 0xFFFFF#20 0xC0000#20 .drain
  | 13 => whenFixed w 0xFFFFF#20 0xD0000#20 .dispatch
  | 14 => whenFixed w 0xFFFFF#20 0xE0000#20 .boot
  | _ => .error .reservedOp

/-- The word of `op` and `arg`: `cmd[19:16]` and `cmd[15:0]` (`30_encoding.md` R76). -/
def wordOf (op : BitVec 4) (arg : BitVec 16) : CmdWord := op ++ arg

/-- An operand at its place in `arg`: its bit 0 is `arg[lo]`. -/
def argField {n : Nat} (lo : Nat) (v : BitVec n) : BitVec 16 := v.setWidth 16 <<< lo

/-- A one-bit operand at `arg[lo]`. -/
def argBit (lo : Nat) (b : Bool) : BitVec 16 := argField lo (BitVec.ofBool b)

/-- The command word of an operation, written from the `arg` fields of `30_encoding.md` R77; bits of `arg` that the
operation does not use are 0 (R76). -/
def encode : Instr → CmdWord
  | .delay ms => wordOf 0#4 ms
  | .keycode r c => wordOf 1#4 (argField 3 r ||| argField 0 c)
  | .resolve code s c f => wordOf 2#4 (argBit 10 f ||| argBit 9 c ||| argBit 8 s ||| argField 0 code)
  | .scan => wordOf 3#4 0#16
  | .consume => wordOf 4#4 0#16
  | .push ch => wordOf 5#4 (argField 0 ch)
  | .pop => wordOf 6#4 0#16
  | .lineIdle => wordOf 7#4 0#16
  | .sendStart => wordOf 8#4 0#16
  | .sendBit b => wordOf 9#4 (argBit 0 b)
  | .sendByte v => wordOf 10#4 (argField 0 v)
  | .sendKey v => wordOf 11#4 (argField 0 v)
  | .drain => wordOf 12#4 0#16
  | .dispatch => wordOf 13#4 0#16
  | .boot => wordOf 14#4 0#16

/-- A word no row selects (`op` = 15, `30_encoding.md` R78). -/
def unselectedWord : CmdWord := 0xF0000#20

/-- The command word among the low `nbits` bits of `w`. A number that does not fit in 20 bits is no command word, and
is read as `unselectedWord`. -/
def tableWord (nbits w : Nat) : CmdWord :=
  let v := w % 2 ^ nbits
  if v < 2 ^ 20 then BitVec.ofNat 20 v else unselectedWord

/-- What the decoder reads from a table row's bits, numbered as `spec/opcode_table.json` numbers them. The word is
issued whole, so there is no byte order to apply (`20_memory.md` R49). -/
def decodeTableWord (nbits w : Nat) : Option Instr :=
  (decode (tableWord nbits w)).toOption

end Sys2Proof
end

