-- ==== Sys2Proof/Machine/State.lean ====
section
/-! DEFINITION. The state of the block (`10_state.md`), its ring buffer memory (`20_memory.md` R41), what the
environment presents at its inputs (`20_memory.md` R44), and the state after reset (`10_state.md` R30). -/

namespace Sys2Proof.Machine

/-- A trace event (`00_scope.md` R8): what an observer outside the block sees. -/
inductive Event where
  /-- `Row(p)`: the pattern `p` is driven on `row_n` -/
  | row (p : Byte)
  /-- `Col(v)`: the sample `v` is read from `col_n` -/
  | col (v : Byte)
  /-- `D(l)`: the data line is written -/
  | d (l : Level)
  /-- `K(l)`: the clock line is written -/
  | k (l : Level)
  /-- `Hold(ms)`: at least `ms` milliseconds pass (R9) -/
  | hold (ms : Nat)
deriving DecidableEq, Repr

/-- The sequencer state `seq`, this hardware's program counter (`10_state.md` R26). -/
inductive Seq where
  | bootDelay
  | bootSend
  | scan
  | consume
  | drain
deriving DecidableEq, Repr

/-- The number of a sequencer state (`10_state.md` R26); 5, 6 and 7 are never produced. -/
def Seq.number : Seq → BitVec 3
  | .bootDelay => 0
  | .bootSend => 1
  | .scan => 2
  | .consume => 3
  | .drain => 4

/-- What the last operation with a result returned to whoever issued it (`30_encoding.md` R77). -/
inductive CmdResult where
  /-- no operation with a result has run yet -/
  | nothing
  /-- `KEYCODE`: 6 bits -/
  | code (v : ScanCode)
  /-- `RESOLVE` and `POP`: 8 bits -/
  | char (v : Byte)
  /-- `SCAN`: 4 bits -/
  | row (v : BitVec 4)
deriving DecidableEq, Repr

/-- What the tick source still delivers on `tick_1ms` (`20_memory.md` R48, `70_reset_and_hazards.md` R222 (a)). -/
inductive TickSource where
  /-- it keeps ticking -/
  | forever
  /-- it ticks `n` times more and then stops (U16) -/
  | left (n : Nat)
deriving DecidableEq, Repr

/-- Why the machine stops. The block has no exception (`60_exceptions.md` R200). -/
inductive Fault where
  /-- Raised by any operation whose delays await more ticks than the tick source still delivers: the block waits for
  ever in `DELAY` (`40_delay.md` R91; `93_implementation_defined.md` U16 says `stuck`). Safe: the machine stops where the
  hardware hangs, and only reset ends the wait. -/
  | tickStopped
deriving DecidableEq, Repr

/-- Why a step is refused. -/
inductive Refusal where
  /-- Raised by an arm of `exec` whose operation has no meaning yet. Safe. -/
  | notModelled (mnemonic : String)
  /-- Raised by a step whose command word selects no operation (`30_encoding.md` R78, D26: "a model refuses it (it has no
  meaning and no step)"). Safe. -/
  | noOperation (w : CmdWord) (why : DecodeError)
deriving DecidableEq, Repr

/-- The ring buffer space RB (`20_memory.md` R41): the slots that hold something other than 0, by rising slot number. -/
abbrev Memory := List Host.Cell

/-- What a slot that is not listed reads as: 0, the reset value of every slot and the empty-slot sentinel
(`10_state.md` R13, R30). -/
def Memory.unlisted : Byte := 0#8

/-- The canonical form: slot numbers strictly rising and below `RB_N`, and no entry equal to `Memory.unlisted`. -/
abbrev Memory.wf (m : Memory) : Prop :=
  m.Pairwise (fun c c' => c.1 < c'.1) ∧ ∀ c ∈ m, c.1 < Config.ringSlots ∧ c.2 ≠ Memory.unlisted

/-- The state of the block, then the model's own fields, then what the environment presents. -/
structure State where
  /-- `seq` (`10_state.md` R26) -/
  seq : Seq
  /-- `key_hit`: false is Idle, true is Pending (R20) -/
  keyHit : Bool
  /-- the modifier flags (R19) -/
  shift : Bool
  shiftLock : Bool
  ctrl : Bool
  func : Bool
  /-- the key-hit record (R12) -/
  khCode : ScanCode
  khChar : Byte
  khRow : LineIdx
  khCol : LineIdx
  /-- the ring buffer slots and its two indices (R13, R14) -/
  buf : Memory
  head : Slot
  tail : Slot
  /-- the transmit registers (R15) -/
  txSr : Byte
  bitIdx : BitVec 4
  /-- the serial line registers, as logical levels (R16) -/
  data : Level
  clock : Level
  /-- `row_n`, as electrical levels (R17) -/
  rowN : Byte
  /-- `scan_ret` (R18) -/
  scanRet : BitVec 4
  /-- the step counters (R27) -/
  rowIdx : LineIdx
  colIdx : LineIdx
  dlyCnt : BitVec 16
  /-- the open parameters of the step relation (R11), fixed: no operation writes them -/
  params : Params
  /-- MODEL'S OWN: the result handed back to the issuer of a command word (`30_encoding.md` R77) -/
  result : CmdResult
  /-- MODEL'S OWN: the trace, oldest event first (`00_scope.md` R8: not state of the block) -/
  trace : List Event
  /-- MODEL'S OWN: the number of the next free value -/
  freeCtr : Nat
  /-- INPUT `col_n`: the samples the key matrix will answer, next first; once none is left, free values -/
  cols : List Byte
  /-- INPUT `tick_1ms` -/
  ticks : TickSource
  /-- INPUT `rst`: `some n` says that reset is sampled 1 in the operation the next step runs, once that operation has
  appended `n` events to the trace (0: before it begins; more than it appends: at its end) -/
  rst : Option Nat
  /-- INPUT: the command words issued to the block and not yet run, next first (`30_encoding.md` R76) -/
  cmds : List CmdWord
  /-- INPUT `data_in_n`, never read -/
  dataIn : BitVec 1
  /-- INPUT `clk_in_n`, never read -/
  clkIn : BitVec 1
deriving DecidableEq, Repr

/-- The machine right after reset (`10_state.md` R30), with the parameters of this hardware, an empty trace, a tick
source that keeps ticking, no command word and no reset pending. -/
def State.reset : State where
  seq := .bootDelay
  keyHit := false
  shift := false
  shiftLock := false
  ctrl := false
  func := false
  khCode := 0#6
  khChar := 0#8
  khRow := 0#3
  khCol := 0#3
  buf := []
  head := 0
  tail := 0
  txSr := 0#8
  bitIdx := 0#4
  data := Config.freeLineReset.1
  clock := Config.freeLineReset.2
  rowN := 0xFF#8
  scanRet := 0#4
  rowIdx := 0#3
  colIdx := 0#3
  dlyCnt := 0#16
  params := Config.hardware
  result := .nothing
  trace := []
  freeCtr := 0
  cols := []
  ticks := .forever
  rst := none
  cmds := []
  dataIn := 1#1
  clkIn := 1#1

end Sys2Proof.Machine
end

