-- ==== Sys2Proof/Machine/Operands.lean ====
section
/-! DEFINITION. The data encodings the operations read and write (`30_encoding.md` section 1): row patterns, column
decode, table indices, bit extraction, ring indices, and the pins of the serial lines. -/

namespace Sys2Proof.Machine

/-- The pattern that drives row `r` active and all others inactive: `~(1 << r)` (`30_encoding.md` R63). -/
def rowPattern (r : LineIdx) : Byte := ~~~(1#8 <<< r.toNat)

/-- Column `c` of the sample `v` is active iff its bit is 0 (`30_encoding.md` R64). -/
def columnActive (v : Byte) (c : LineIdx) : Bool := !v.getLsbD c.toNat

/-- The rows of a pass, in scan order (`42_scanner.md` R124). -/
def rowOrder : List LineIdx := [0, 1, 2, 3, 4, 5, 6, 7]

/-- The columns of a row, in scan order (`42_scanner.md` R124). -/
def columnOrder : ColOrder → List LineIdx
  | .ascending => [0, 1, 2, 3, 4, 5, 6, 7]
  | .descending => [7, 6, 5, 4, 3, 2, 1, 0]

/-- The table index `{r, c}` (`30_encoding.md` R65). -/
def keymapIndex (r c : LineIdx) : BitVec 6 := r ++ c

/-- `KEYMAP[{r, c}]` (`41_keytable.md` R102). -/
def keymapAt (p : Params) (r c : LineIdx) : ScanCode :=
  BitVec.ofNat 6 (p.keymap[(keymapIndex r c).toNat]'(keymapIndex r c).isLt).val

/-- The row of `CHARTAB` for `code`, none where the code has no row; 49..63 have none (`30_encoding.md` R79). -/
def charRowAt (p : Params) (code : ScanCode) : Option CharRow :=
  if h : code.toNat < 49 then p.chartab[code.toNat] else none

/-- Character resolution (`41_keytable.md` R105): control over function over shift over base, a modifier without an
entry passed over; 0 for a code without a row. -/
def resolveChar (p : Params) (code : ScanCode) (s c f : Bool) : Byte :=
  match charRowAt p code with
  | none => 0#8
  | some row =>
    match (if c then row.ctrl else none), (if f then row.func else none) with
    | some v, _ => v
    | none, some v => v
    | none, none => if s then row.shifted else row.base

/-- The level that carries a bit: HIGH = 1, LOW = 0 (`00_scope.md` R7). -/
def levelOf (b : Bool) : Level := if b then .high else .low

/-- The level on the pin of a line: 0 for HIGH, 1 for LOW (`20_memory.md` R47). -/
def pinOf : Level → BitVec 1
  | .high => 0#1
  | .low => 1#1

/-- The output pins of the serial lines (`20_memory.md` R44, R47). -/
def State.dataOutN (s : State) : BitVec 1 := pinOf s.data
def State.clkOutN (s : State) : BitVec 1 := pinOf s.clock

/-- The successor of a ring index: a comparison with 9, not a dropped carry (`20_memory.md` R50). -/
def nextSlot (i : Slot) : Slot :=
  if h : i.val + 1 < Config.ringSlots then ⟨i.val + 1, h⟩ else 0

/-- The number of characters a reader can still get: `(tail - head) mod 10` (`43_ringbuffer.md` R140). -/
def State.unread (s : State) : Nat := (s.tail.val + Config.ringSlots - s.head.val) % Config.ringSlots

end Sys2Proof.Machine
end

