-- ==== Sys2Proof/Machine/Ops.lean ====
section
/-! DEFINITION. The named operations over memory, registers and ports that every meaning is built from (the primitives
of `00_scope.md` R8), and how an operation that delays ends. The block takes no exception (`60_exceptions.md` R200,
R204): the one event that takes control away is reset (`State.applyReset`, `Machine/Turn.lean`). -/

namespace Sys2Proof.Machine

/-- `MemRead(a, 1)` of the ring buffer space (`20_memory.md` R41). -/
def Memory.read : Memory → Nat → Byte
  | [], _ => Memory.unlisted
  | c :: m, a => if c.1 = a then c.2 else Memory.read m a

/-- The entry of slot `a`, put before the first entry of a higher slot. -/
def Memory.enter : Memory → Nat → Byte → Memory
  | [], a, v => [(a, v)]
  | c :: m, a, v => if a < c.1 then (a, v) :: c :: m else c :: Memory.enter m a v

/-- The memory without an entry for slot `a`. -/
def Memory.erase (m : Memory) (a : Nat) : Memory := m.filter fun c => c.1 != a

/-- `MemWrite(a, 1, v)` of the ring buffer space (`20_memory.md` R41), in canonical form: writing what an unlisted slot
reads as removes the entry. -/
def Memory.write (m : Memory) (a : Nat) (v : Byte) : Memory :=
  if v = Memory.unlisted then m.erase a else (m.erase a).enter a v

/-- `buf[i]`. -/
def State.slot (s : State) (i : Slot) : Byte := s.buf.read i.val

/-- `buf[i] <- v`. -/
def State.writeSlot (s : State) (i : Slot) (v : Byte) : State :=
  { s with buf := s.buf.write i.val v }

/-- Hands a result to the issuer of the command word (`30_encoding.md` R77). -/
def State.answer (s : State) (r : CmdResult) : State :=
  { s with result := r }

/-- `seq <- q`. -/
def State.goto (s : State) (q : Seq) : State :=
  { s with seq := q }

/-- `RowDrive(p)` (`20_memory.md` R45). -/
def State.driveRow (s : State) (p : Byte) : State :=
  { s with rowN := p, trace := s.trace ++ [.row p] }

/-- The next column sample: the environment's next answer, a free value once it has given none
(`20_memory.md` R46, `42_scanner.md` R122). -/
def State.nextColumn (s : State) : Byte := s.cols.headD (Config.freeColumn s.freeCtr)

/-- `ColSample()` (`20_memory.md` R46): takes the sample `nextColumn` gives. -/
def State.takeColumn (s : State) : State :=
  { s with cols := s.cols.tail, freeCtr := s.freeCtr + 1, trace := s.trace ++ [.col s.nextColumn] }

/-- `Data(l)` (`20_memory.md` R47). -/
def State.driveData (s : State) (l : Level) : State :=
  { s with data := l, trace := s.trace ++ [.d l] }

/-- `Clock(l)` (`20_memory.md` R47). -/
def State.driveClock (s : State) (l : Level) : State :=
  { s with clock := l, trace := s.trace ++ [.k l] }

/-- `DELAY(ms)` up to its end (`40_delay.md` R91): nothing for 0; otherwise the counter runs down to 0 and `Hold(ms)` is
appended. That the `ms` ticks it counts do arrive is `awaiting`'s business. -/
def delay (ms : BitVec 16) (s : State) : State :=
  if ms = 0#16 then s
  else { s with dlyCnt := 0#16, trace := s.trace ++ [.hold ms.toNat] }

/-- Reset (`10_state.md` R30): every register takes the value of the table, the serial lines the parameter
`LINE_RESET`; the parameters, the model's own fields and what the environment presents are no registers and stay. -/
def State.applyReset (s : State) : State :=
  { s with
    seq := .bootDelay
    keyHit := false
    shift := false, shiftLock := false, ctrl := false, func := false
    khCode := 0#6, khChar := 0#8, khRow := 0#3, khCol := 0#3
    buf := [], head := 0, tail := 0
    txSr := 0#8, bitIdx := 0#4
    data := s.params.lineReset.1, clock := s.params.lineReset.2
    rowN := 0xFF#8, scanRet := 0#4
    rowIdx := 0#3, colIdx := 0#3, dlyCnt := 0#16 }

/-- The milliseconds, and so the ticks, that a list of events accounts for: each `Hold(ms)` is `ms` counted ticks
(`40_delay.md` R92). -/
def holdTime : List Event → Nat
  | [] => 0
  | .hold ms :: evs => ms + holdTime evs
  | _ :: evs => holdTime evs

/-- The tick source delivers `n` more ticks. -/
def TickSource.supplies : TickSource → Nat → Bool
  | .forever, _ => true
  | .left m, n => n ≤ m

/-- What is left of the tick source after `n` ticks. -/
def TickSource.spend : TickSource → Nat → TickSource
  | .forever, _ => .forever
  | .left m, n => .left (m - n)

/-- The events of `t` that came after `s`. -/
def newEvents (s t : State) : List Event := t.trace.drop s.trace.length

/-- An operation that delays ends when the ticks its delays count have arrived; where the tick source delivers fewer,
the block waits in `DELAY` for ever (`40_delay.md` R91, U16). -/
def awaiting (op : State → State) (s : State) : Host.Outcome State Fault Refusal :=
  let t := op s
  let need := holdTime (newEvents s t)
  if s.ticks.supplies need then .next { t with ticks := s.ticks.spend need } else .fault .tickStopped

end Sys2Proof.Machine
end

