-- ==== Sys2Proof/Machine/Delay.lean ====
section
/-! DEFINITION. Family DLY: the millisecond delay (`40_delay.md`). -/

namespace Sys2Proof.Machine

/-- `DELAY ms` (`40_delay.md` R91). -/
def execDelay (ms : BitVec 16) (s : State) : Host.Outcome State Fault Refusal :=
  awaiting (delay ms) s

end Sys2Proof.Machine
end

