-- ==== Sys2Proof/Machine/KeyTable.lean ====
section
/-! DEFINITION. Family TAB: the position table and character resolution (`41_keytable.md`). Both operations only
return a value. -/

namespace Sys2Proof.Machine

/-- `KEYCODE r, c` (`41_keytable.md` R102). -/
def execKeycode (r c : LineIdx) (s : State) : Host.Outcome State Fault Refusal :=
  .next (s.answer (.code (keymapAt s.params r c)))

/-- `RESOLVE code, s, c, f` (`41_keytable.md` R105): the flags are operands, not the registers. -/
def execResolve (code : ScanCode) (shift ctrl func : Bool) (s : State) : Host.Outcome State Fault Refusal :=
  .next (s.answer (.char (resolveChar s.params code shift ctrl func)))

end Sys2Proof.Machine
end

