-- ==== Sys2Proof/Machine/Flags.lean ====
section
/-! DEFINITION. The modifier flags (`10_state.md` R19): which codes are modifiers, what each sets, what the start of a
pass clears, and the one shift input the flags give to resolution. -/

namespace Sys2Proof.Machine

/-- The modifier codes are 44, 45, 46 and 48 (`30_encoding.md` R60, R61). -/
def isModifier (code : ScanCode) : Bool :=
  code == Config.codeShift || code == Config.codeShiftLock || code == Config.codeCtrl || code == Config.codeFunc

/-- The clear at the start of a pass: `shift_lock` is not touched (`10_state.md` R19, `42_scanner.md` R123). -/
def clearModifiers (s : State) : State :=
  { s with shift := false, ctrl := false, func := false }

/-- The flags a modifier code sets; shift-lock sets `shift` too (`42_scanner.md` R128). -/
def setModifier (code : ScanCode) (s : State) : State :=
  if code = Config.codeShift then { s with shift := true }
  else if code = Config.codeShiftLock then { s with shift := true, shiftLock := true }
  else if code = Config.codeCtrl then { s with ctrl := true }
  else if code = Config.codeFunc then { s with func := true }
  else s

/-- `shift_on = shift OR shift_lock` (`41_keytable.md` R107). -/
def State.shiftOn (s : State) : Bool := s.shift || s.shiftLock

/-- The character of `code` under the flags as they stand (`42_scanner.md` R123). -/
def State.charOf (s : State) (code : ScanCode) : Byte :=
  resolveChar s.params code s.shiftOn s.ctrl s.func

end Sys2Proof.Machine
end

