-- ==== Sys2Proof/Machine/Ring.lean ====
section
/-! DEFINITION. Family RB: the key ring buffer (`43_ringbuffer.md`). There is no full test, no count and no error
(R148). -/

namespace Sys2Proof.Machine

/-- `PUSH(ch)` (`43_ringbuffer.md` R141): write at `tail`, advance it, zero the new tail slot. -/
def push (ch : Byte) (s : State) : State :=
  let next := nextSlot s.tail
  { (s.writeSlot s.tail ch).writeSlot next 0#8 with tail := next }

/-- The value `POP` returns (`43_ringbuffer.md` R143): 0 when `head == tail`, else `buf[head]`. -/
def popChar (s : State) : Byte :=
  if s.head = s.tail then 0#8 else s.slot s.head

/-- What `POP` leaves (`43_ringbuffer.md` R143): nothing changed when empty; else the slot zeroed and `head` advanced. -/
def pop (s : State) : State :=
  if s.head = s.tail then s
  else { s.writeSlot s.head 0#8 with head := nextSlot s.head }

/-- `PUSH ch` (`43_ringbuffer.md` R141). -/
def execPush (ch : Byte) (s : State) : Host.Outcome State Fault Refusal :=
  .next (push ch s)

/-- `POP` (`43_ringbuffer.md` R143). -/
def execPop (s : State) : Host.Outcome State Fault Refusal :=
  .next ((pop s).answer (.char (popChar s)))

end Sys2Proof.Machine
end

