-- ==== Sys2Proof/Machine/Scanner.lean ====
section
/-! DEFINITION. Family SCN: the matrix scanner and the debounce FSM (`42_scanner.md`). -/

namespace Sys2Proof.Machine

/-- A non-modifier code becomes the key-hit record and the state becomes Pending (`42_scanner.md` R125); its character
is fixed here only under `at_latch` (R127). -/
def latchKey (r c : LineIdx) (code : ScanCode) (s : State) : State :=
  let latched := { s with khRow := r, khCol := c, khCode := code, keyHit := true }
  match s.params.resolvePoint with
  | .atLatch => { latched with khChar := s.charOf code }
  | .endOfPass => latched

/-- A press of a defined key: the result names its row (`42_scanner.md` R129), and the code is a modifier (R128) or a
key to latch (R125). The pass keeps `ret` in `scan_ret`, which nothing reads before the pass ends. -/
def seePress (r c : LineIdx) (code : ScanCode) (s : State) : State :=
  let seen := { s with scanRet := r.setWidth 4 + 1#4 }
  if isModifier code then setModifier code seen else latchKey r c code seen

/-- One column of a sampled row: acts only where the column is active and its position has a key
(`42_scanner.md` R123, R126). -/
def scanColumn (r : LineIdx) (v : Byte) (s : State) (c : LineIdx) : State :=
  if columnActive v c && keymapAt s.params r c != 0#6 then seePress r c (keymapAt s.params r c) s else s

/-- The columns of one sample, in `COL_ORDER` (`42_scanner.md` R124). -/
def scanColumns (r : LineIdx) (v : Byte) (s : State) : State :=
  (columnOrder s.params.colOrder).foldl (scanColumn r v) s

/-- One row: drive it, sample once, decode the eight columns (`42_scanner.md` R123, R124). -/
def scanRow (s : State) (r : LineIdx) : State :=
  let driven := { s with rowIdx := r }.driveRow (rowPattern r)
  scanColumns r driven.nextColumn driven.takeColumn

/-- The end of a pass: under `end_of_pass` the character of the latched key is computed now, from the flags of the
whole pass (`42_scanner.md` R127). `col_idx` is left at a free value (`10_state.md` R27). -/
def endPass (s : State) : State :=
  let resolved :=
    if s.params.resolvePoint = .endOfPass ∧ s.keyHit then { s with khChar := s.charOf s.khCode } else s
  { resolved with colIdx := Config.freeColIdx s.freeCtr, freeCtr := s.freeCtr + 1 }

/-- A pass in state Idle (`42_scanner.md` R123). -/
def scanPass (s : State) : State :=
  endPass (rowOrder.foldl scanRow { clearModifiers s with scanRet := 0#4 })

/-- `SCAN()` (`42_scanner.md` R123): in state Pending only `scan_ret` is written (R132). -/
def scan (s : State) : State :=
  if s.keyHit then { s with scanRet := 0#4 } else scanPass s

/-- `CONSUME()` (`42_scanner.md` R130). -/
def consume (s : State) : State :=
  if s.keyHit then
    { if s.khChar ≠ 0#8 then delay Config.keyrdDel (push s.khChar s) else s with keyHit := false }
  else s

/-- `SCAN` (`42_scanner.md` R123): its result is the value left in `scan_ret`. -/
def execScan (s : State) : Host.Outcome State Fault Refusal :=
  .next ((scan s).answer (.row (scan s).scanRet))

/-- `CONSUME` (`42_scanner.md` R130). -/
def execConsume (s : State) : Host.Outcome State Fault Refusal :=
  awaiting consume s

end Sys2Proof.Machine
end

