-- ==== Sys2Proof/Machine/Transmitter.lean ====
section
/-! DEFINITION. Family TX: the serial bit transmitter (`44_transmitter.md`). -/

namespace Sys2Proof.Machine

/-- `LINE_IDLE()` (`44_transmitter.md` R161). -/
def lineIdle (s : State) : State :=
  delay Config.sigDel ((s.driveData .high).driveClock .high)

/-- `SEND_START()` (`44_transmitter.md` R162). -/
def sendStart (s : State) : State :=
  let primed := delay Config.sigDel ((s.driveData .high).driveClock .high)
  delay Config.sigDel ((primed.driveData .low).driveClock .low)

/-- `SEND_BIT(b)` (`44_transmitter.md` R164). -/
def sendBit (b : Bool) (s : State) : State :=
  let raised := delay Config.sigDel ((s.driveData (levelOf b)).driveClock .high)
  delay Config.sigDel (raised.driveClock .low)

/-- The bit loop of `SEND_BYTE` (`44_transmitter.md` R166): with `n` bits still to send, bit `n - 1` goes next. -/
def sendBits : Nat → State → State
  | 0, s => s
  | n + 1, s => sendBits n { sendBit (s.txSr.getLsbD n) s with bitIdx := BitVec.ofNat 4 n }

/-- `SEND_BYTE(v)` (`44_transmitter.md` R166). -/
def sendByte (v : Byte) (s : State) : State :=
  sendBits 8 { sendStart { s with txSr := v } with bitIdx := 8#4 }

/-- `SEND_KEY(v)` (`44_transmitter.md` R168). -/
def sendKey (v : Byte) (s : State) : State :=
  sendByte v (lineIdle s)

/-- `LINE_IDLE` (`44_transmitter.md` R161). -/
def execLineIdle (s : State) : Host.Outcome State Fault Refusal :=
  awaiting lineIdle s

/-- `SEND_START` (`44_transmitter.md` R162). -/
def execSendStart (s : State) : Host.Outcome State Fault Refusal :=
  awaiting sendStart s

/-- `SEND_BIT b` (`44_transmitter.md` R164). -/
def execSendBit (b : Bool) (s : State) : Host.Outcome State Fault Refusal :=
  awaiting (sendBit b) s

/-- `SEND_BYTE v` (`44_transmitter.md` R166). -/
def execSendByte (v : Byte) (s : State) : Host.Outcome State Fault Refusal :=
  awaiting (sendByte v) s

/-- `SEND_KEY v` (`44_transmitter.md` R168). -/
def execSendKey (v : Byte) (s : State) : Host.Outcome State Fault Refusal :=
  awaiting (sendKey v) s

end Sys2Proof.Machine
end

