-- ==== Sys2Proof/Machine/Sequencer.lean ====
section
/-! DEFINITION. Family SEQ: the dispatch sequencer and boot (`45_dispatch.md`), as composites of the other families'
operations (`30_encoding.md` R81), and the one operation each sequencer state runs (`10_state.md` R26). -/

namespace Sys2Proof.Machine

/-- The drain loop (`45_dispatch.md` R181), at most `n` turns of it. -/
def drainLoop : Nat → State → State
  | 0, s => s
  | n + 1, s => if popChar s = 0#8 then pop s else drainLoop n (sendKey (popChar s) (pop s))

/-- `DRAIN()` (`45_dispatch.md` R181): "at most 9 turns run" that send, and one more that ends the loop. -/
def drain (s : State) : State := drainLoop Config.ringSlots s

/-- `DISPATCH()` (`45_dispatch.md` R183): the result of the scan is not used. -/
def dispatch (s : State) : State :=
  let scanned := scan (s.goto .scan)
  let consumed := consume (scanned.goto .consume)
  (drain (consumed.goto .drain)).goto .scan

/-- `BOOT()` (`45_dispatch.md` R185). -/
def boot (s : State) : State :=
  let waited := delay Config.bootDel (s.goto .bootDelay)
  (sendKey Config.bootByte (waited.goto .bootSend)).goto .scan

/-- One operation of the hard-wired sequencer and the state it goes to (the table of `10_state.md` R26): in `S_DRAIN` one
`POP`, and the character sent and `S_DRAIN` kept unless it is 0. -/
def sequencerTurn (s : State) : State :=
  match s.seq with
  | .bootDelay => (delay Config.bootDel s).goto .bootSend
  | .bootSend => (sendKey Config.bootByte s).goto .scan
  | .scan => (scan s).goto .consume
  | .consume => (consume s).goto .drain
  | .drain => if popChar s = 0#8 then (pop s).goto .scan else sendKey (popChar s) (pop s)

/-- `DRAIN` (`45_dispatch.md` R181). -/
def execDrain (s : State) : Host.Outcome State Fault Refusal :=
  awaiting drain s

/-- `DISPATCH` (`45_dispatch.md` R183). -/
def execDispatch (s : State) : Host.Outcome State Fault Refusal :=
  awaiting dispatch s

/-- `BOOT` (`45_dispatch.md` R185). -/
def execBoot (s : State) : Host.Outcome State Fault Refusal :=
  awaiting boot s

end Sys2Proof.Machine
end

