-- ==== Sys2Proof/Machine/Dispatch.lean ====
section
/-! DEFINITION. One arm per operation (`30_encoding.md` R75). -/

namespace Sys2Proof.Machine

/-- The meaning of one operation. -/
def exec (i : Instr) (s : State) : Host.Outcome State Fault Refusal :=
  match i with
  | .delay ms => Sys2Proof.Machine.execDelay ms s
  | .keycode r c => Sys2Proof.Machine.execKeycode r c s
  | .resolve code sh ct fn => Sys2Proof.Machine.execResolve code sh ct fn s
  | .scan => Sys2Proof.Machine.execScan s
  | .consume => Sys2Proof.Machine.execConsume s
  | .push ch => Sys2Proof.Machine.execPush ch s
  | .pop => Sys2Proof.Machine.execPop s
  | .lineIdle => Sys2Proof.Machine.execLineIdle s
  | .sendStart => Sys2Proof.Machine.execSendStart s
  | .sendBit b => Sys2Proof.Machine.execSendBit b s
  | .sendByte v => Sys2Proof.Machine.execSendByte v s
  | .sendKey v => Sys2Proof.Machine.execSendKey v s
  | .drain => Sys2Proof.Machine.execDrain s
  | .dispatch => Sys2Proof.Machine.execDispatch s
  | .boot => Sys2Proof.Machine.execBoot s

end Sys2Proof.Machine
end

