-- ==== Sys2Proof/Machine/Turn.lean ====
section
/-! DEFINITION. What one step runs: the next command word, or the hard-wired sequencer's next operation where no command
word is issued; and the reset that abandons it (`10_state.md` R30). -/

namespace Sys2Proof.Machine

/-- Runs the operation a command word names; a word that selects none is refused (`30_encoding.md` R78). -/
def runCommand (w : CmdWord) (s : State) : Host.Outcome State Fault Refusal :=
  match decode w with
  | .ok i => exec i s
  | .error why => .refused (.noOperation w why)

/-- The operation of the next step: the first command word issued, or what `seq` says (`10_state.md` R26). -/
def turn (s : State) : Host.Outcome State Fault Refusal :=
  match s.cmds with
  | w :: rest => runCommand w { s with cmds := rest }
  | [] => awaiting sequencerTurn s

/-- The events the next operation appends when nothing stops it. -/
def turnEvents (s : State) : List Event :=
  match turn { s with ticks := .forever } with
  | .next t => newEvents s t
  | .fault _ => []
  | .refused _ => []

/-- The events that happen before the block waits for a tick that never comes. -/
def reached : TickSource → List Event → List Event
  | _, [] => []
  | ticks, e :: evs =>
    if ticks.supplies (holdTime [e]) then e :: reached (ticks.spend (holdTime [e])) evs else []

/-- The number of column samples among some events. -/
def columnsIn (evs : List Event) : Nat :=
  (evs.filter fun e => match e with | .col _ => true | _ => false).length

/-- Reset after the next operation has appended `n` events (`10_state.md` R30): the operation is abandoned, what it had
put on the ports stays in the trace (`70_reset_and_hazards.md` R239), and every register takes its reset value. -/
def resetDuring (n : Nat) (s : State) : State :=
  let evs := reached s.ticks ((turnEvents s).take n)
  { s.applyReset with
    trace := s.trace ++ evs
    cols := s.cols.drop (columnsIn evs)
    freeCtr := s.freeCtr + columnsIn evs
    ticks := s.ticks.spend (holdTime evs)
    cmds := s.cmds.tail
    rst := none }

end Sys2Proof.Machine
end

