-- ==== Sys2Proof/Machine/Step.lean ====
section
/-! DEFINITION. One step: one operation (the spec's decision D1), or the reset that abandons it. -/

namespace Sys2Proof.Machine

/-- One step of the machine (`10_state.md` R10, R30). -/
def step (s : State) : Host.Outcome State Fault Refusal :=
  match s.rst with
  | none => turn s
  | some n => .next (resetDuring n s)

/-- `s` with the command word among the low `nbits` bits of `w` issued as the next one to run, and no reset due. -/
def State.withFetchWord (s : State) (nbits w : Nat) : State :=
  { s with rst := none, cmds := tableWord nbits w :: s.cmds }

end Sys2Proof.Machine
end

