-- ==== Sys2Proof/Safety.lean ====
section
/-! DEFINITION. The vocabulary the claims use: the invariants of `10_state.md` R31, which operations may write which
registers, the frame of a byte on the wire (`30_encoding.md` R67), what a pass of the matrix sees, and runs of command
words. Nothing here is used by the machine. -/

namespace Sys2Proof

/-! Which parts an operation runs (`30_encoding.md` R81, `45_dispatch.md` R188). -/

/-- The operation runs `SCAN`. -/
def Instr.scans : Instr → Bool
  | .scan | .dispatch => true
  | _ => false

/-- The operation runs `CONSUME`. -/
def Instr.consumes : Instr → Bool
  | .consume | .dispatch => true
  | _ => false

/-- The operation runs `PUSH`. -/
def Instr.pushes : Instr → Bool
  | .push _ | .consume | .dispatch => true
  | _ => false

/-- The operation runs `POP`. -/
def Instr.pops : Instr → Bool
  | .pop | .drain | .dispatch => true
  | _ => false

/-- The operation runs `SEND_BYTE`. -/
def Instr.sendsByte : Instr → Bool
  | .sendByte _ | .sendKey _ | .drain | .dispatch | .boot => true
  | _ => false

/-- The operation writes a serial line. -/
def Instr.drivesLines (i : Instr) : Bool :=
  match i with
  | .lineIdle | .sendStart | .sendBit _ => true
  | _ => i.sendsByte

/-- The operation runs `DELAY`. -/
def Instr.delays (i : Instr) : Bool :=
  match i with
  | .delay _ => true
  | _ => i.drivesLines || i.consumes

/-- The operation writes `seq`. -/
def Instr.sequences : Instr → Bool
  | .dispatch | .boot => true
  | _ => false

/-- The operation has a result (`30_encoding.md` R77). -/
def Instr.returns : Instr → Bool
  | .keycode _ _ | .resolve _ _ _ _ | .scan | .pop => true
  | _ => false

namespace Machine

/-- `f` on the next state, a stop left as it is. -/
def onNext (f : State → State) : Host.Outcome State Fault Refusal → Host.Outcome State Fault Refusal
  | .next t => .next (f t)
  | .fault r => .fault r
  | .refused r => .refused r

/-- The same state with other levels at the input halves of the serial lines. -/
def State.withSerialInputs (s : State) (d k : BitVec 1) : State := { s with dataIn := d, clkIn := k }

/-- The invariants of `10_state.md` R31 that hold whatever command words are run (the ranges of `head` and `tail` are in
their types), with the ranges of R15 and R17 and the table entries of `41_keytable.md` R104. -/
structure State.Inv (s : State) : Prop where
  ring : s.buf.wf
  tailSlotEmpty : s.slot s.tail = 0#8
  codeDefined : s.khCode.toNat ≤ 48
  pendingKey : s.keyHit = true → s.khCode ≠ 0#6 ∧ isModifier s.khCode = false
  result : s.scanRet.toNat ≤ 8
  bits : s.bitIdx.toNat ≤ 8
  rowLines : s.rowN = 0xFF#8 ∨ ∃ r, s.rowN = rowPattern r
  tables : s.params.wellFormed = true

/-- The boundary between two turns of `DISPATCH` (`45_dispatch.md` R187): Idle, and nothing queued. -/
def State.AtBoundary (s : State) : Prop := s.keyHit = false ∧ s.head = s.tail

/-- What holds of each sequencer state while no command word is issued (`10_state.md` R31, `45_dispatch.md` R187). -/
def State.SequencerInv (s : State) : Prop :=
  match s.seq with
  | .bootDelay | .bootSend | .scan => s.AtBoundary
  | .consume => s.head = s.tail
  | .drain => s.keyHit = false ∧ s.unread ≤ 1

/-! The wire (`30_encoding.md` R67, R68). -/

/-- The data bits of a byte in sending order, bit 7 first. -/
def bitsMsbFirst (v : Byte) : List Bool :=
  [v.getLsbD 7, v.getLsbD 6, v.getLsbD 5, v.getLsbD 4, v.getLsbD 3, v.getLsbD 2, v.getLsbD 1, v.getLsbD 0]

/-- The idle preamble. -/
def idleEvents : List Event := [.d .high, .k .high, .hold 4]

/-- The start sequence. -/
def startEvents : List Event := [.d .high, .k .high, .hold 4, .d .low, .k .low, .hold 4]

/-- One data bit: data, clock high, clock low. -/
def bitEvents (b : Bool) : List Event := [.d (levelOf b), .k .high, .hold 4, .k .low, .hold 4]

/-- The start sequence and the eight data bits. -/
def byteEvents (v : Byte) : List Event := startEvents ++ (bitsMsbFirst v).flatMap bitEvents

/-- A whole frame. -/
def frameEvents (v : Byte) : List Event := idleEvents ++ byteEvents v

/-- The data levels a receiver reads that samples at every falling edge of the clock, given the levels of (data, clock)
before the first event. -/
def fallingSamples : Level → Level → List Event → List Level
  | _, _, [] => []
  | _, clk, .d l :: evs => fallingSamples l clk evs
  | data, .high, .k .low :: evs => data :: fallingSamples data .low evs
  | data, _, .k l :: evs => fallingSamples data l evs
  | data, clk, _ :: evs => fallingSamples data clk evs

/-- The byte whose bits arrive as these levels, bit 7 first. -/
def byteOfLevels (ls : List Level) : Byte :=
  ls.foldl (fun v l => (v <<< 1) ||| (if l = .high then 1#8 else 0#8)) 0#8

/-! The matrix (`42_scanner.md`). -/

/-- The next `n` column samples the environment answers, in order. -/
def State.samples (s : State) (n : Nat) : List Byte :=
  (List.range n).map fun k => s.cols.getD k (Config.freeColumn (s.freeCtr + k))

/-- An active column at a position that has a key. -/
structure Press where
  row : LineIdx
  col : LineIdx
  code : ScanCode
deriving DecidableEq, Repr

/-- The presses one row's sample shows, in column order. -/
def pressesInRow (p : Params) (r : LineIdx) (v : Byte) : List Press :=
  (columnOrder p.colOrder).filterMap fun c =>
    if columnActive v c && keymapAt p r c != 0#6 then some ⟨r, c, keymapAt p r c⟩ else none

/-- The presses of a pass, in scan order (`42_scanner.md` R124). -/
def presses (p : Params) (samples : List Byte) : List Press :=
  (rowOrder.zip samples).flatMap fun rv => pressesInRow p rv.1 rv.2

/-- The key a pass latches: the last non-modifier press in scan order (`42_scanner.md` R125, R133). -/
def lastKey (ps : List Press) : Option Press :=
  (ps.filter fun k => !isModifier k.code).getLast?

/-- The presses up to and with the last key: what a pass had seen when it latched that key. -/
def upToLastKey (ps : List Press) : List Press :=
  (ps.reverse.dropWhile fun k => isModifier k.code).reverse

/-- Some press has this code. -/
def seen (code : ScanCode) (ps : List Press) : Bool := ps.any fun k => k.code == code

/-- The shift flag a pass ends with: codes 44 and 45 both set it (`42_scanner.md` R128). -/
def shiftSeen (ps : List Press) : Bool := seen Config.codeShift ps || seen Config.codeShiftLock ps

/-- The result of a pass: 1 + the row of its last press, 0 without one (`42_scanner.md` R129). -/
def rowResult (ps : List Press) : BitVec 4 :=
  match ps.getLast? with
  | none => 0#4
  | some k => k.row.setWidth 4 + 1#4

/-- The flags resolution uses, from the presses `ps` and the shift-lock flag before the pass. -/
def charFor (p : Params) (locked : Bool) (ps : List Press) (code : ScanCode) : Byte :=
  resolveChar p code (shiftSeen ps || locked) (seen Config.codeCtrl ps) (seen Config.codeFunc ps)

/-- The presses that count for the character of the latched key (`42_scanner.md` R127). -/
def resolvingPresses (p : Params) (ps : List Press) : List Press :=
  match p.resolvePoint with
  | .atLatch => upToLastKey ps
  | .endOfPass => ps

/-- The events of a pass: each row driven, then sampled once (`42_scanner.md` R123). -/
def passEvents (samples : List Byte) : List Event :=
  (rowOrder.zip samples).flatMap fun rv => [.row (rowPattern rv.1), .col rv.2]

/-- The eight samples of `IdealMatrix(pressed)` over one pass (`42_scanner.md` R122). -/
def idealSamples (pressed : List (LineIdx × LineIdx)) : List Byte :=
  rowOrder.map fun r =>
    (columnOrder .ascending).foldl
      (fun v c => if pressed.contains (r, c) then v &&& ~~~(1#8 <<< c.toNat) else v) 0xFF#8

/-! The queue (`43_ringbuffer.md`). -/

/-- The characters a reader can still get, oldest first (`43_ringbuffer.md` R140). -/
def State.queued (s : State) : List Byte :=
  (List.range s.unread).map fun n => s.buf.read ((s.head.val + n) % Config.ringSlots)

/-- The characters a drain sends: those queued before the first 0 (`45_dispatch.md` R181). -/
def State.toSend (s : State) : List Byte := s.queued.takeWhile fun ch => ch != 0#8

/-- How many characters a drain pops: those it sends, and the 0 that ends it where one is queued. -/
def State.toPop (s : State) : Nat := min (s.toSend.length + 1) s.queued.length

/-- Operations run one after another, stopping at the first that does not answer a next state. -/
def execAll : List Instr → State → Host.Outcome State Fault Refusal
  | [], s => .next s
  | i :: is, s =>
    match exec i s with
    | .next t => execAll is t
    | .fault r => .fault r
    | .refused r => .refused r

/-- What the issuer holds after each of these operations. -/
def returned : List Instr → State → List CmdResult
  | [], _ => []
  | i :: is, s =>
    match exec i s with
    | .next t => t.result :: returned is t
    | .fault _ => []
    | .refused _ => []

end Machine

end Sys2Proof
end

