-- ==== Sys2Proof/Certificates/Slice0/Obligations.lean ====
section
/-! DEFINITION. The statements for the provers. Each docstring names the rule of the spec it formalises. -/

open Sys2Proof Sys2Proof.Machine

/-! ## Encoding -/

/-- Every operation is what the decoder reads from its own word, with every operand value (`30_encoding.md` R76,
R77; the encoding is the spec's decision D24). -/
def Obligations.DecodeOfEncodeIsTheOperation : Prop :=
  ∀ i : Instr, decode (encode i) = .ok i

/-- No two words name one operation: a word that decodes is the encoding of what it decodes to
(`30_encoding.md` R76, R77; the spec's decision D24). -/
def Obligations.EncodeOfDecodeIsTheWord : Prop :=
  ∀ (w : CmdWord) (i : Instr), decode w = .ok i → encode i = w

/-- The decoder gives an operation exactly to the words a row of the opcode map selects, and that row is the operation's
own and the only one (`30_encoding.md` R77; the spec's decision D24). -/
def Obligations.DecodeFollowsTheOpcodeMap : Prop :=
  ∀ w : CmdWord,
    ((∃ i, decode w = .ok i) ↔ CmdWord.wellFormed w = true) ∧
    ∀ i, decode w = .ok i → ∀ row ∈ opcodeTable, (row.selects w = true ↔ row = i.row)

/-- The worked words of `30_encoding.md` R80 (the spec's decision D24). -/
def Obligations.WorkedWordsDecode : Prop :=
  decode 0x00004#20 = .ok (.delay 4#16) ∧
  decode 0x10017#20 = .ok (.keycode 2#3 7#3) ∧
  decode 0x20218#20 = .ok (.resolve 24#6 false true false) ∧
  decode 0x30000#20 = .ok .scan ∧
  decode 0x50041#20 = .ok (.push 0x41#8) ∧
  decode 0x60000#20 = .ok .pop ∧
  decode 0x90001#20 = .ok (.sendBit true) ∧
  decode 0xB0041#20 = .ok (.sendKey 0x41#8)

/-- A word that selects no operation has no step: `op` = 15 whatever its `arg`, and every word with a must-be-zero bit
set (`30_encoding.md` R78; the spec's decision D26). -/
def Obligations.UnselectedWordIsRefused : Prop :=
  ∀ (s : State) (w : CmdWord) (rest : List CmdWord),
    s.rst = none → s.cmds = w :: rest → CmdWord.wellFormed w = false →
    step s = .refused (.noOperation w (if opField w = 15#4 then .reservedOp else .reservedArgBits))

/-! ## The step -/

/-- When the next command word decodes to an operation, the step is that operation, run with the word taken off the
words issued. That a command word goes before the sequencer is the model's choice (log entry 16). -/
def Obligations.StepRunsTheDecodedCommand : Prop :=
  ∀ (s : State) (w : CmdWord) (rest : List CmdWord) (i : Instr),
    s.rst = none → s.cmds = w :: rest → decode w = .ok i →
    step s = exec i { s with cmds := rest }

/-- With no command word issued, the step runs the operation `seq` names and moves `seq` as the table of
`10_state.md` R26 says; that `result` stays is the model's choice (log entry 22). -/
def Obligations.StepRunsTheSequencer : Prop :=
  ∀ s : State, s.rst = none → s.cmds = [] →
    (s.seq = .bootDelay → step s = onNext (fun t => t.goto .bootSend) (exec (.delay 1000#16) s)) ∧
    (s.seq = .bootSend → step s = onNext (fun t => t.goto .scan) (exec (.sendKey 0x00#8) s)) ∧
    (s.seq = .scan →
      step s = onNext (fun t => (t.goto .consume).answer s.result) (exec .scan s)) ∧
    (s.seq = .consume → step s = onNext (fun t => t.goto .drain) (exec .consume s)) ∧
    (s.seq = .drain → ∀ t ch, exec .pop s = .next t → t.result = .char ch →
      (ch = 0#8 → step s = .next ((t.goto .scan).answer s.result)) ∧
      (ch ≠ 0#8 → step s = exec (.sendKey ch) (t.answer s.result)))

/-- No operation raises an exception: while the tick source keeps ticking, every operation ends in a next state, on any
operand and in any state; the one way to stop is a tick source that stops, in an operation that delays
(`60_exceptions.md` R200, `40_delay.md` R91). The tick source and its fault are the model's choice (log entry 13). -/
def Obligations.EveryOperationIsTotal : Prop :=
  ∀ (i : Instr) (s : State),
    (s.ticks = .forever → ∃ t, exec i s = .next t) ∧
    (∀ r, exec i s = .fault r → r = .tickStopped ∧ i.delays = true ∧ ∃ n, s.ticks = .left n) ∧
    (∀ r, exec i s ≠ .refused r)

/-! ## DELAY -/

/-- `DELAY ms` (`40_delay.md` R91): nothing at all for 0; otherwise `Hold(ms)` and the counter at 0, nothing else, once the
tick source has delivered `ms` ticks; and the block waits for ever where it delivers fewer. The tick source
and its fault are the model's choice (log entry 13). -/
def Obligations.DelayCountsItsTicks : Prop :=
  ∀ (s : State) (ms : BitVec 16),
    (ms = 0#16 → exec (.delay ms) s = .next s) ∧
    (ms ≠ 0#16 → s.ticks.supplies ms.toNat = true →
      exec (.delay ms) s =
        .next { s with dlyCnt := 0#16, ticks := s.ticks.spend ms.toNat, trace := s.trace ++ [.hold ms.toNat] }) ∧
    (∀ n, s.ticks = .left n → n < ms.toNat → exec (.delay ms) s = .fault .tickStopped)

/-! ## KEYCODE, RESOLVE -/

/-- `KEYCODE r, c` returns the table entry at `8 * r + c`, a value in 0..48, and writes nothing
(`41_keytable.md` R102, `30_encoding.md` R65). The index `8 * r + c` is the spec's decision D32 (log entry 24). -/
def Obligations.KeycodeReadsThePositionTable : Prop :=
  ∀ (s : State) (r c : LineIdx), ∃ (h : 8 * r.toNat + c.toNat < 64) (v : ScanCode),
    exec (.keycode r c) s = .next (s.answer (.code v)) ∧
    v.toNat = (s.params.keymap[8 * r.toNat + c.toNat]'h).val ∧ v.toNat ≤ 48

/-- `RESOLVE code, s, c, f` (`41_keytable.md` R105, R106): 0 for a code without a row; else the control entry where control
is on and the row has one, else the function entry likewise, else shifted or base. That an absent entry is passed over
is the spec's decision D13. Nothing but the result is written,
and the modifier flags of the block are not read. -/
def Obligations.ResolveFollowsThePrecedence : Prop :=
  ∀ (s : State) (code : ScanCode) (sh ct fn : Bool), ∃ v : Byte,
    exec (.resolve code sh ct fn) s = .next (s.answer (.char v)) ∧
    (48 < code.toNat → v = 0#8) ∧
    (∀ h : code.toNat < 49, s.params.chartab[code.toNat] = none → v = 0#8) ∧
    (∀ (h : code.toNat < 49) (row : CharRow), s.params.chartab[code.toNat] = some row →
      (ct = true → row.ctrl.isSome = true → some v = row.ctrl) ∧
      (¬ (ct = true ∧ row.ctrl.isSome = true) →
        (fn = true → row.func.isSome = true → some v = row.func) ∧
        (¬ (fn = true ∧ row.func.isSome = true) → v = if sh then row.shifted else row.base)))

/-- The precedence (`41_keytable.md` R106): control over function over shift over base, for a key that has all four entries;
so code 24 with control on is 19, regardless of shift and function. -/
def Obligations.ControlOverFunctionOverShiftOverBase : Prop :=
  (∀ (s : State) (code : ScanCode) (h : code.toNat < 49) (base shifted ctrl func : Byte) (sh ct fn : Bool),
    s.params.chartab[code.toNat] = some ⟨base, shifted, some ctrl, some func⟩ →
    exec (.resolve code sh ct fn) s =
      .next (s.answer (.char (if ct then ctrl else if fn then func else if sh then shifted else base)))) ∧
  ∀ (s : State) (sh fn : Bool), s.params.wellFormed = true →
    exec (.resolve 24#6 sh true fn) s = .next (s.answer (.char 19#8))

/-- The characters the spec fixes, for every table that meets its constraints (`41_keytable.md` R104, `95_test_vectors.md`
E1, E2): code 24 under control is 19 regardless of shift and function, and so on. The codes of `'!'`, `'s'`, `'S'` and
space are the spec's general knowledge (G1, log entry 7). -/
def Obligations.ResolveGivesTheFixedCharacters : Prop :=
  ∀ (s : State), s.params.wellFormed = true →
    (∀ sh fn, exec (.resolve 24#6 sh true fn) s = .next (s.answer (.char 19#8))) ∧
    (∀ sh, exec (.resolve 24#6 sh false true) s = .next (s.answer (.char 129#8))) ∧
    exec (.resolve 24#6 true false false) s = .next (s.answer (.char 0x53#8)) ∧
    exec (.resolve 24#6 false false false) s = .next (s.answer (.char 0x73#8)) ∧
    exec (.resolve 1#6 false false false) s = .next (s.answer (.char 0x31#8)) ∧
    exec (.resolve 1#6 true false false) s = .next (s.answer (.char 0x21#8)) ∧
    exec (.resolve 47#6 false false false) s = .next (s.answer (.char 0x20#8))

/-- No character: codes 0 and 34, the four modifier codes and 49..63 resolve to 0 whatever the flags
(`30_encoding.md` R79, `41_keytable.md` R105). -/
def Obligations.UnmappedCodesResolveToZero : Prop :=
  ∀ (s : State) (code : ScanCode) (sh ct fn : Bool), s.params.wellFormed = true →
    (code ∈ [0#6, 34#6, 44#6, 45#6, 46#6, 48#6] ∨ 48 < code.toNat) →
    exec (.resolve code sh ct fn) s = .next (s.answer (.char 0#8))

/-! ## SCAN -/

/-- `SCAN` in state Pending writes `scan_ret` and returns 0, and nothing else: no row, no sample, no flag, and the key-hit
record untouched whatever is pressed (`42_scanner.md` R132). That no row is driven is the spec's decision D28. -/
def Obligations.ScanWhilePendingIsNoOp : Prop :=
  ∀ s : State, s.keyHit = true →
    exec .scan s = .next { s with scanRet := 0#4, result := .row 0#4 }

/-- `SCAN` in state Idle drives the rows 0 to 7, each alone, and samples the columns once under each: exactly eight `Row`
events each followed by one `Col` event, `row_n` left at 0x7F and `row_idx` at 7, and of all other state only what
`42_scanner.md` R123 lists may change. The bit of a row is the spec's decision D9. -/
def Obligations.ScanDrivesAndSamplesEveryRowOnce : Prop :=
  ∀ s : State, s.keyHit = false → ∃ t, exec .scan s = .next t ∧
    t.trace = s.trace ++ passEvents (s.samples 8) ∧
    t.rowN = 0x7F#8 ∧ t.rowIdx = 7#3 ∧ t.cols = s.cols.drop 8 ∧
    t = { s with
      shift := t.shift, shiftLock := t.shiftLock, ctrl := t.ctrl, func := t.func, keyHit := t.keyHit
      khRow := t.khRow, khCol := t.khCol, khCode := t.khCode, khChar := t.khChar
      rowN := t.rowN, scanRet := t.scanRet, rowIdx := t.rowIdx, colIdx := t.colIdx
      result := t.result, trace := t.trace, cols := t.cols, freeCtr := t.freeCtr }

/-- What a pass in state Idle makes of its samples: every modifier seen sets its flag, shift-lock stays once set, the last
non-modifier press in scan order is latched and the state is Pending exactly if there is one, and the result is 1 + the
row of the last press (`42_scanner.md` R125, R126, R128, R129, R133). The spec's decisions in it: which code is which
modifier (D5), the lasting shift-lock (D6), the row of the result (D10), a press at a code-0 position ignored (D11). -/
def Obligations.ScanLatchesTheLastKey : Prop :=
  ∀ (s : State) (ps : List Press), s.keyHit = false → ps = presses s.params (s.samples 8) →
    ∃ t, exec .scan s = .next t ∧
    t.shift = shiftSeen ps ∧ t.ctrl = seen 46#6 ps ∧ t.func = seen 48#6 ps ∧
    t.shiftLock = (s.shiftLock || seen 45#6 ps) ∧
    t.keyHit = (lastKey ps).isSome ∧
    (∀ k, lastKey ps = some k → t.khRow = k.row ∧ t.khCol = k.col ∧ t.khCode = k.code) ∧
    (lastKey ps = none →
      t.khRow = s.khRow ∧ t.khCol = s.khCol ∧ t.khCode = s.khCode ∧ t.khChar = s.khChar) ∧
    t.scanRet = rowResult ps ∧ t.result = .row (rowResult ps)

/-- The character of the latched key (`42_scanner.md` R127): resolved from the flags of the presses up to the key under
`at_latch`, of the whole pass under `end_of_pass`; a shift-lock engaged in an earlier pass counts under both (the spec's
decisions D6, D7). -/
def Obligations.ScanResolvesAtTheResolvePoint : Prop :=
  ∀ (s : State) (k : Press), s.keyHit = false →
    lastKey (presses s.params (s.samples 8)) = some k → ∃ t, exec .scan s = .next t ∧
    t.khChar =
      charFor s.params s.shiftLock (resolvingPresses s.params (presses s.params (s.samples 8))) k.code

/-- Under `at_latch` a modifier that lies after the latched key in scan order does not reach its character: two passes
whose presses agree up to the key latch the same character (`70_reset_and_hazards.md` R232). -/
def Obligations.LaterModifiersMissALatchedKey : Prop :=
  ∀ (s u : State) (k : Press), s.keyHit = false → u.keyHit = false → s.params = u.params →
    s.params.resolvePoint = .atLatch → s.shiftLock = u.shiftLock →
    lastKey (presses s.params (s.samples 8)) = some k → lastKey (presses u.params (u.samples 8)) = some k →
    upToLastKey (presses s.params (s.samples 8)) = upToLastKey (presses u.params (u.samples 8)) →
    ∃ t v, exec .scan s = .next t ∧ exec .scan u = .next v ∧ t.khChar = v.khChar

/-! ## CONSUME -/

/-- `CONSUME` (`42_scanner.md` R130): nothing in state Idle; a key without a character is only cleared; a key with one is
pushed, the post-press delay runs, and the state returns to Idle. The record and the modifier flags stay (the spec's
decision D16; the 115 ms are D27). -/
def Obligations.ConsumePushesAndClears : Prop :=
  ∀ s : State,
    (s.keyHit = false → exec .consume s = .next s) ∧
    (s.keyHit = true → s.khChar = 0#8 → exec .consume s = .next { s with keyHit := false }) ∧
    (s.keyHit = true → s.khChar ≠ 0#8 → s.ticks.supplies 115 = true → ∃ t,
      exec (.push s.khChar) s = .next t ∧
      exec .consume s =
        .next { t with keyHit := false, dlyCnt := 0#16, ticks := s.ticks.spend 115, trace := s.trace ++ [.hold 115] })

/-! ## PUSH, POP -/

/-- `PUSH ch` (`43_ringbuffer.md` R141): the slot at `tail` gets the character, `tail` advances modulo 10, the new tail slot
is zeroed, every other slot and every other register stays; the buffer may be full. -/
def Obligations.PushWritesTwoSlots : Prop :=
  ∀ (s : State) (ch : Byte), ∃ t, exec (.push ch) s = .next t ∧
    t.tail.val = (s.tail.val + 1) % 10 ∧
    t.slot s.tail = ch ∧ t.slot t.tail = 0#8 ∧
    (∀ a : Nat, a ≠ s.tail.val → a ≠ t.tail.val → t.buf.read a = s.buf.read a) ∧
    t = { s with buf := t.buf, tail := t.tail }

/-- `POP` (`43_ringbuffer.md` R143): empty, it returns 0 and changes nothing; otherwise it returns the character at `head`,
zeroes that slot and advances `head` modulo 10, and every other slot and register stays. -/
def Obligations.PopTakesTheOldest : Prop :=
  ∀ s : State,
    (s.head = s.tail → exec .pop s = .next (s.answer (.char 0#8))) ∧
    (s.head ≠ s.tail → ∃ t, exec .pop s = .next t ∧
      t.result = .char (s.slot s.head) ∧ t.head.val = (s.head.val + 1) % 10 ∧
      t.slot s.head = 0#8 ∧
      (∀ a : Nat, a ≠ s.head.val → t.buf.read a = s.buf.read a) ∧
      t = { s with buf := t.buf, head := t.head, result := t.result })

/-- First in, first out, and what overflow leaves: after `K` pushes onto an empty buffer, `POP` returns the last
`K mod 10` characters pushed, in order, and then 0 (`43_ringbuffer.md` R145 for `K` ≤ 9, R147 in general). -/
def Obligations.RingDeliversTheLastPushesModuloTen : Prop :=
  ∀ (s : State) (cs : List Byte), s.head = s.tail → ∃ t,
    execAll (cs.map Instr.push) s = .next t ∧
    returned (List.replicate (cs.length % 10 + 1) .pop) t =
      ((cs.drop (cs.length - cs.length % 10)) ++ [0#8]).map CmdResult.char

/-- The tenth unread push (`43_ringbuffer.md` R146): `tail` meets `head`, the oldest unread character is gone, and `POP`
returns 0 and changes nothing. -/
def Obligations.TenthUnreadPushEmptiesTheRing : Prop :=
  ∀ (s : State) (ch : Byte), s.unread = 9 → ∃ t, exec (.push ch) s = .next t ∧
    t.tail = t.head ∧ t.head = s.head ∧ t.slot t.head = 0#8 ∧
    exec .pop t = .next (t.answer (.char 0#8))

/-! ## The transmitter -/

/-- `LINE_IDLE` (`44_transmitter.md` R161; the length of the hold and the order of the two writes are the spec's decisions
D19, D20). -/
def Obligations.LineIdleRaisesBothLines : Prop :=
  ∀ s : State, s.ticks.supplies 4 = true →
    exec .lineIdle s =
      .next { s with
        data := .high, clock := .high, dlyCnt := 0#16, ticks := s.ticks.spend 4
        trace := s.trace ++ [.d .high, .k .high, .hold 4] }

/-- `SEND_START` (`44_transmitter.md` R162): both lines HIGH for at least 4 ms, then both LOW for at least 4 ms
(the order within a pair is the spec's decision D20). -/
def Obligations.SendStartPrimesBothLines : Prop :=
  ∀ s : State, s.ticks.supplies 8 = true →
    exec .sendStart s =
      .next { s with
        data := .low, clock := .low, dlyCnt := 0#16, ticks := s.ticks.spend 8
        trace := s.trace ++ [.d .high, .k .high, .hold 4, .d .low, .k .low, .hold 4] }

/-- `SEND_BIT b` (`44_transmitter.md` R164): the data line at the bit's level through one clock HIGH and LOW. -/
def Obligations.SendBitClocksOneBit : Prop :=
  ∀ (s : State) (b : Bool), s.ticks.supplies 8 = true →
    exec (.sendBit b) s =
      .next { s with
        data := (if b = true then .high else .low), clock := .low, dlyCnt := 0#16, ticks := s.ticks.spend 8
        trace := s.trace ++
          [.d (if b = true then .high else .low), .k .high, .hold 4, .k .low, .hold 4] }

/-- `SEND_BYTE v` (`44_transmitter.md` R166): the start sequence, then eight data bits, bit 7 first; `tx_sr` holds the byte
and `bit_idx` is 0 at the end, and the lines rest at (bit 0, LOW). That data is written before clock in each pair of the
start sequence is the spec's decision D20 (log entry 24). -/
def Obligations.SendByteSendsMsbFirst : Prop :=
  ∀ (s : State) (v : Byte), s.ticks.supplies 72 = true →
    exec (.sendByte v) s =
      .next { s with
        data := levelOf (v.getLsbD 0), clock := .low, txSr := v, bitIdx := 0#4, dlyCnt := 0#16
        ticks := s.ticks.spend 72, trace := s.trace ++ byteEvents v }

/-- `SEND_KEY v` (`44_transmitter.md` R168): the idle preamble, then the byte; the ring buffer is not touched
(the spec's decisions D19, D20). -/
def Obligations.SendKeySendsOneFrame : Prop :=
  ∀ (s : State) (v : Byte), s.ticks.supplies 76 = true →
    exec (.sendKey v) s =
      .next { s with
        data := levelOf (v.getLsbD 0), clock := .low, txSr := v, bitIdx := 0#4, dlyCnt := 0#16
        ticks := s.ticks.spend 76, trace := s.trace ++ frameEvents v }

/-- Every transmitter operation, and only the ticks matter: where fewer ticks arrive than its holds count, the block waits
in `DELAY` for ever (`40_delay.md` R91, `70_reset_and_hazards.md` R222 (a); log entry 13). -/
def Obligations.TransmitterHangsWithoutTicks : Prop :=
  ∀ (s : State) (n : Nat) (b : Bool) (v : Byte), s.ticks = .left n →
    (n < 4 → exec .lineIdle s = .fault .tickStopped) ∧
    (n < 8 → exec .sendStart s = .fault .tickStopped ∧ exec (.sendBit b) s = .fault .tickStopped) ∧
    (n < 72 → exec (.sendByte v) s = .fault .tickStopped) ∧
    (n < 76 → exec (.sendKey v) s = .fault .tickStopped)

/-- What a receiver may rely on (`44_transmitter.md` R170): whatever the lines were before, a receiver that samples the data
line at each falling edge of the clock reads LOW at the start sequence and then exactly eight levels, which are the byte,
bit 7 first. That it reads LOW at the start rests on data being written before clock, the spec's decision D20 (log entry
24). -/
def Obligations.ReceiverReadsTheByteSent : Prop :=
  ∀ (s : State) (v : Byte), s.ticks.supplies 76 = true → ∃ t ls, exec (.sendKey v) s = .next t ∧
    fallingSamples s.data s.clock (newEvents s t) = .low :: ls ∧ ls.length = 8 ∧ byteOfLevels ls = v

/-- The pins carry the inverse of the logical levels (`20_memory.md` R47): after any operation that drives the lines, a HIGH
line is a pin at 0 and a LOW line a pin at 1; a whole frame ends with `clk_out_n` at 1 and `data_out_n` at the inverse of
bit 0. -/
def Obligations.PinsCarryTheInverse : Prop :=
  (∀ s : State,
    (s.data = .high → s.dataOutN = 0#1) ∧ (s.data = .low → s.dataOutN = 1#1) ∧
    (s.clock = .high → s.clkOutN = 0#1) ∧ (s.clock = .low → s.clkOutN = 1#1)) ∧
  ∀ (s t : State) (v : Byte), exec (.sendKey v) s = .next t →
    t.clkOutN = 1#1 ∧ t.dataOutN = (if v.getLsbD 0 = true then 0#1 else 1#1)

/-! ## DRAIN, DISPATCH, BOOT -/

/-- `DRAIN` is its own loop (`45_dispatch.md` R181): a `POP` that returns 0 ends it; any other character is sent and the
drain goes on (the spec's decision D18). That the value of the inner `POP` is not left in `result` is the model's choice (log
entry 22). -/
def Obligations.DrainIsTheLoopOfPopAndSend : Prop :=
  ∀ (s t : State) (ch : Byte), exec .pop s = .next t → t.result = .char ch →
    (ch = 0#8 → exec .drain s = .next (t.answer s.result)) ∧
    (ch ≠ 0#8 → ∀ u, exec (.sendKey ch) (t.answer s.result) = .next u → exec .drain s = exec .drain u)

/-- What a whole `DRAIN` does (`45_dispatch.md` R181): the queued characters before the first 0 are sent as frames in queue
order, one frame of at least 76 ms each, at most nine; `head` moves past what was popped, whose slots are zeroed, and
comes to `tail` where no 0 was queued; no other slot changes. That a 0 ends the drain is the spec's decision D18, the frame's
idle preamble and the order in a pair are D19 and D20 (log entry 24); that `result` stays is the model's choice (log entry
22). -/
def Obligations.DrainSendsTheQueueInOrder : Prop :=
  ∀ s : State, s.ticks.supplies (76 * s.toSend.length) = true → ∃ t, exec .drain s = .next t ∧
    s.toSend.length ≤ 9 ∧
    t.trace = s.trace ++ s.toSend.flatMap frameEvents ∧
    t.ticks = s.ticks.spend (76 * s.toSend.length) ∧
    t.head.val = (s.head.val + s.toPop) % 10 ∧ t.tail = s.tail ∧
    ((∀ ch ∈ s.queued, ch ≠ 0#8) → t.head = t.tail) ∧
    (∀ n, n < s.toPop → t.buf.read ((s.head.val + n) % 10) = 0#8) ∧
    (∀ a, (∀ n, n < s.toPop → a ≠ (s.head.val + n) % 10) → t.buf.read a = s.buf.read a) ∧
    (s.toSend = [] → t = { s with buf := t.buf, head := t.head }) ∧
    (∀ v, s.toSend.getLast? = some v →
      t = { s with
        buf := t.buf, head := t.head, data := levelOf (v.getLsbD 0), clock := .low, txSr := v
        bitIdx := 0#4, dlyCnt := 0#16, ticks := t.ticks, trace := t.trace })

/-- `DISPATCH` is `SCAN`, `CONSUME`, `DRAIN` in that order, and leaves `seq` at `S_SCAN`; it hands no result to its issuer
(`45_dispatch.md` R183, `30_encoding.md` R81; that no result is handed on is log entry 22). -/
def Obligations.DispatchIsScanConsumeDrain : Prop :=
  ∀ s t1 t2 t3 : State,
    exec .scan s = .next t1 → exec .consume t1 = .next t2 → exec .drain t2 = .next t3 →
    exec .dispatch s = .next ((t3.goto .scan).answer s.result)

/-- One turn of the main loop ends where it began (`45_dispatch.md` R187): from Idle with nothing queued, and ticks for one
key, `DISPATCH` comes back to Idle with nothing queued at `S_SCAN`, and has sent at most one frame. The 115 ms are the spec's
decision D27 (log entry 9), the frame's details D19 and D20 (log entry 24). -/
def Obligations.DispatchReturnsToTheBoundary : Prop :=
  ∀ s : State, s.AtBoundary → s.ticks.supplies 191 = true → ∃ t, exec .dispatch s = .next t ∧
    t.AtBoundary ∧ t.seq = .scan ∧
    (t.head = s.head ∧ t.trace = s.trace ++ passEvents (s.samples 8) ∨
      ∃ ch, ch ≠ 0#8 ∧ t.head.val = (s.head.val + 1) % 10 ∧
        t.trace = s.trace ++ passEvents (s.samples 8) ++ [.hold 115] ++ frameEvents ch)

/-- `DISPATCH` runs to its end from every state, whatever is pending or queued, given ticks for one key and nine frames
(`45_dispatch.md` R181, R183). That `result` stays is the model's choice (log entry 22). -/
def Obligations.DispatchCompletes : Prop :=
  ∀ s : State, s.ticks.supplies (115 + 76 * 9) = true →
    ∃ t, exec .dispatch s = .next t ∧ t.seq = .scan ∧ t.keyHit = false ∧ t.result = s.result

/-- One key, end to end (`45_dispatch.md` R183 (b), `95_test_vectors.md` E7): a pass that latches a key with a character
`ch` ends in the frame of `ch` on the wire, after the post-press delay, and the ring is empty again one slot further. The
spec's decisions in it are D16, D27 and those of the character and the frame, D5, D6, D7, D19, D20 (log entries 8, 9, 24). -/
def Obligations.DispatchSendsTheKeyPressed : Prop :=
  ∀ (s : State) (k : Press) (ch : Byte), s.AtBoundary → s.ticks.supplies 191 = true →
    lastKey (presses s.params (s.samples 8)) = some k →
    ch = charFor s.params s.shiftLock (resolvingPresses s.params (presses s.params (s.samples 8))) k.code →
    ch ≠ 0#8 → ∃ t, exec .dispatch s = .next t ∧
      t.trace = s.trace ++ passEvents (s.samples 8) ++ [.hold 115] ++ frameEvents ch ∧
      t.keyHit = false ∧ t.khRow = k.row ∧ t.khCol = k.col ∧ t.khCode = k.code ∧ t.khChar = ch ∧
      t.head.val = (s.head.val + 1) % 10 ∧ t.tail = t.head ∧
      t.slot s.head = 0#8 ∧ t.slot t.head = 0#8 ∧
      (∀ a : Nat, a ≠ s.head.val → a ≠ t.head.val → t.buf.read a = s.buf.read a) ∧
      t.data = levelOf (ch.getLsbD 0) ∧ t.clock = .low ∧ t.txSr = ch ∧ t.bitIdx = 0#4 ∧ t.seq = .scan ∧
      t.ticks = s.ticks.spend 191

/-- No key down (`45_dispatch.md` R183 (a)): a turn from the boundary whose samples show no press adds the eight row and
column events and changes nothing but `shift`, `ctrl`, `func`, `row_n`, `scan_ret` and the pass counters. That
`result` stays is the model's choice (log entry 22). -/
def Obligations.DispatchWithNoKeyChangesLittle : Prop :=
  ∀ s : State, s.AtBoundary → presses s.params (s.samples 8) = [] → ∃ t, exec .dispatch s = .next t ∧
    t.trace = s.trace ++ passEvents (s.samples 8) ∧
    t = { s with
      seq := .scan, shift := false, ctrl := false, func := false, rowN := 0x7F#8, scanRet := 0#4
      rowIdx := 7#3, colIdx := t.colIdx, trace := t.trace, cols := t.cols, freeCtr := t.freeCtr }

/-- `BOOT` (`45_dispatch.md` R185; the spec's decision D22, the frame's are D19 and D20): one second, the frame of 0x00, and `seq` at `S_SCAN`; no key is
scanned and the ring is not touched. -/
def Obligations.BootSendsTheZeroByte : Prop :=
  ∀ s : State, s.ticks.supplies 1076 = true →
    exec .boot s =
      .next { s with
        seq := .scan, data := .low, clock := .low, txSr := 0#8, bitIdx := 0#4, dlyCnt := 0#16
        ticks := s.ticks.spend 1076, trace := s.trace ++ [.hold 1000] ++ frameEvents 0x00#8 }

/-- The composites add no behaviour of their own (`30_encoding.md` R81): each is the operations at the right of its row, one
after another, with the registers it writes itself: `tx_sr` and `bit_idx` (`44_transmitter.md` R166), `seq`
(`45_dispatch.md` R183, R185). The 1000 ms and the frame of `BOOT` are the spec's decision D22 (log entry 9), and that
`DISPATCH` hands no result on is the model's choice (log entry 22). -/
def Obligations.CompositesAreTheirExpansions : Prop :=
  ∀ (s t : State) (v : Byte),
    (execAll [.sendStart, .sendBit (v.getLsbD 7), .sendBit (v.getLsbD 6), .sendBit (v.getLsbD 5),
        .sendBit (v.getLsbD 4), .sendBit (v.getLsbD 3), .sendBit (v.getLsbD 2), .sendBit (v.getLsbD 1),
        .sendBit (v.getLsbD 0)] s = .next t →
      exec (.sendByte v) s = .next { t with txSr := v, bitIdx := 0#4 }) ∧
    (execAll [.lineIdle, .sendByte v] s = .next t → exec (.sendKey v) s = .next t) ∧
    (execAll [.scan, .consume, .drain] s = .next t →
      exec .dispatch s = .next ((t.goto .scan).answer s.result)) ∧
    (execAll [.delay 1000#16, .sendKey 0x00#8] s = .next t → exec .boot s = .next (t.goto .scan))

/-! ## The running block -/

/-- From `S_SCAN`, with no command word issued and no reset due, the sequencer's own steps make exactly one turn of
`DISPATCH`: `SCAN`, `CONSUME`, and the steps of the drain (`45_dispatch.md` R183, `10_state.md` R26). What a step is, when it
is the sequencer's, and that `result` stays, are log entries 1, 16 and 22. -/
def Obligations.SequencerTurnIsDispatch : Prop :=
  ∀ s t : State, s.seq = .scan → s.rst = none → s.cmds = [] → exec .dispatch s = .next t →
    ∃ k, 3 ≤ k ∧ k ≤ 12 ∧ Sys2Proof.core.run k s = .next t

/-- After reset the sequencer runs `BOOT` once: its first two steps are exactly `BOOT`, and from the reset state they put
`Hold(1000)` and the frame of 0x00 on the ports and come to `S_SCAN` (`45_dispatch.md` R187, `70_reset_and_hazards.md`
R221). The boot delay and its frame are the spec's decision D22 (log entry 9); that `State.reset` has ticks and no command
word is log entry 18. -/
def Obligations.SequencerBootsFirst : Prop :=
  (∀ s t : State, s.seq = .bootDelay → s.rst = none → s.cmds = [] → exec .boot s = .next t →
    Sys2Proof.core.run 2 s = .next t) ∧
  ∃ t, Sys2Proof.core.run 2 State.reset = .next t ∧ t.seq = .scan ∧
    t.trace = [.hold 1000] ++ frameEvents 0x00#8

/-- The block never halts (`45_dispatch.md` R187): while the tick source keeps ticking and no command word is issued, every
step answers a next state, and a drain comes back to `S_SCAN` within ten steps. The tick source and the command words are
log entries 13 and 16, what a step of a drain is log entry 1. -/
def Obligations.SequencerNeverHalts : Prop :=
  ∀ s : State, s.ticks = .forever → s.cmds = [] →
    (∃ t, step s = .next t ∧ t.ticks = .forever ∧ t.cmds = []) ∧
    (s.seq = .drain → s.rst = none → ∃ k t, 1 ≤ k ∧ k ≤ 10 ∧ Sys2Proof.core.run k s = .next t ∧ t.seq = .scan)

/-! ## Reset -/

/-- The reset state holds the values of the table of `10_state.md` R30 (the spec's decisions D6, D14, D17, D31; log entry
10). -/
def Obligations.ResetStateHoldsTheResetValues : Prop :=
  State.reset.seq = .bootDelay ∧ State.reset.keyHit = false ∧
  State.reset.shift = false ∧ State.reset.ctrl = false ∧ State.reset.func = false ∧
  State.reset.shiftLock = false ∧
  State.reset.khCode = 0#6 ∧ State.reset.khChar = 0#8 ∧ State.reset.khRow = 0#3 ∧ State.reset.khCol = 0#3 ∧
  State.reset.head = 0 ∧ State.reset.tail = 0 ∧ (∀ i : Slot, State.reset.slot i = 0#8) ∧
  State.reset.txSr = 0#8 ∧ State.reset.bitIdx = 0#4 ∧ State.reset.rowIdx = 0#3 ∧ State.reset.colIdx = 0#3 ∧
  State.reset.dlyCnt = 0#16 ∧ State.reset.scanRet = 0#4 ∧ State.reset.rowN = 0xFF#8

/-- Reset at any moment (`10_state.md` R30, `70_reset_and_hazards.md` R220): whatever operation is in progress, the step
answers a state in which every register has its reset value, the serial lines the levels `LINE_RESET`, and the tables
are as before. The values are the spec's decisions D6, D14, D17 and D31 (log entry 10), the levels its open parameter D23
(log entry 6), and where in an operation reset lands is log entry 14. -/
def Obligations.ResetAbandonsEverything : Prop :=
  ∀ (s : State) (n : Nat), s.rst = some n → ∃ t, step s = .next t ∧
    t.seq = .bootDelay ∧ t.keyHit = false ∧ t.shift = false ∧ t.ctrl = false ∧ t.func = false ∧
    t.shiftLock = false ∧ t.khCode = 0#6 ∧ t.khChar = 0#8 ∧ t.khRow = 0#3 ∧ t.khCol = 0#3 ∧
    t.head = 0 ∧ t.tail = 0 ∧ (∀ i : Slot, t.slot i = 0#8) ∧ t.txSr = 0#8 ∧ t.bitIdx = 0#4 ∧
    t.rowIdx = 0#3 ∧ t.colIdx = 0#3 ∧ t.dlyCnt = 0#16 ∧ t.scanRet = 0#4 ∧ t.rowN = 0xFF#8 ∧
    (t.data, t.clock) = s.params.lineReset ∧ t.params = s.params ∧ t.rst = none

/-- A reset in mid-operation leaves a truncated trace (`70_reset_and_hazards.md` R239): of the events the operation would
have appended, those before the reset stay, and nothing follows them; a tick source that stops may cut them shorter (log
entry 14). -/
def Obligations.ResetTruncatesTheTrace : Prop :=
  ∀ (s u : State) (n : Nat), s.rst = some n → step { s with rst := none, ticks := .forever } = .next u →
    ∃ t, step s = .next t ∧
      (s.ticks = .forever → t.trace = u.trace.take (s.trace.length + n)) ∧
      (∀ m, s.ticks = .left m → ∃ j, j ≤ n ∧ t.trace = u.trace.take (s.trace.length + j) ∧
        holdTime (newEvents s t) ≤ m)

/-! ## Whole-machine rules -/

/-- The invariants of `10_state.md` R31 hold after reset, whose values are the spec's decisions (log entry 10). -/
def Obligations.InvariantsHoldAtReset : Prop := State.reset.Inv

/-- Every step keeps the invariants of `10_state.md` R31, whatever command words are run and wherever reset lands
(the reset values and where reset lands: log entries 10, 14). -/
def Obligations.StepKeepsTheInvariants : Prop :=
  ∀ s t : State, s.Inv → step s = .next t → t.Inv

/-- The sequencer's own invariant holds after reset (`10_state.md` R31), whose values are the spec's decisions (log entry
10). -/
def Obligations.SequencerInvariantHoldsAtReset : Prop := State.reset.SequencerInv

/-- Under the sequencer alone, at entry to `S_SCAN` the buffer is empty and the state Idle, and at entry to `S_DRAIN` the
buffer holds at most one character (`10_state.md` R31, `45_dispatch.md` R187; the reset values are log entry 10, the command
words log entry 16). -/
def Obligations.SequencerKeepsItsInvariant : Prop :=
  ∀ s t : State, s.cmds = [] → s.SequencerInv → step s = .next t → t.SequencerInv ∧ t.cmds = []

/-- Every register has only the writers `10_state.md` names: an operation that runs none of them leaves it, and no operation
writes the tables, the command words, reset, or the input halves of the serial lines. `result` is no register but the
model's own field: which operations write it is log entry 22 (`30_encoding.md` R77). -/
def Obligations.RegistersHaveOnlyTheirWriters : Prop :=
  ∀ (i : Instr) (s t : State), exec i s = .next t →
    (i.scans = false → t.shift = s.shift ∧ t.shiftLock = s.shiftLock ∧ t.ctrl = s.ctrl ∧ t.func = s.func ∧
      t.khCode = s.khCode ∧ t.khChar = s.khChar ∧ t.khRow = s.khRow ∧ t.khCol = s.khCol ∧
      t.rowN = s.rowN ∧ t.scanRet = s.scanRet ∧ t.rowIdx = s.rowIdx ∧ t.colIdx = s.colIdx ∧
      t.cols = s.cols ∧ t.freeCtr = s.freeCtr) ∧
    (i.scans = false → i.consumes = false → t.keyHit = s.keyHit) ∧
    (i.pushes = false → t.tail = s.tail) ∧
    (i.pops = false → t.head = s.head) ∧
    (i.pushes = false → i.pops = false → t.buf = s.buf) ∧
    (i.sendsByte = false → t.txSr = s.txSr ∧ t.bitIdx = s.bitIdx) ∧
    (i.drivesLines = false → t.data = s.data ∧ t.clock = s.clock) ∧
    (i.delays = false → t.dlyCnt = s.dlyCnt ∧ t.ticks = s.ticks) ∧
    (i.sequences = false → t.seq = s.seq) ∧
    (i.returns = false → t.result = s.result) ∧
    t.params = s.params ∧ t.cmds = s.cmds ∧ t.rst = s.rst ∧ t.dataIn = s.dataIn ∧ t.clkIn = s.clkIn

/-- Shift-lock, once set, is cleared by reset alone (`10_state.md` R19, `70_reset_and_hazards.md` R235; the spec's
decision D6). -/
def Obligations.OnlyResetClearsShiftLock : Prop :=
  ∀ s t : State, s.shiftLock = true → step s = .next t → (t.shiftLock = true ↔ s.rst = none)

/-- The key-hit flag moves as the table of `42_scanner.md` R121 says: only an operation that runs `SCAN` takes Idle to Pending,
an operation that runs `CONSUME` always ends in Idle, and a hit that is pending survives every other one with its record. -/
def Obligations.PendingKeySurvivesUntilConsumed : Prop :=
  ∀ (i : Instr) (s t : State), exec i s = .next t →
    (s.keyHit = false → i.scans = false → t.keyHit = false) ∧
    (i.consumes = true → t.keyHit = false) ∧
    (s.keyHit = true → i.consumes = false → t.keyHit = true ∧ t.khCode = s.khCode ∧ t.khChar = s.khChar ∧
      t.khRow = s.khRow ∧ t.khCol = s.khCol)

/-- The input halves of the serial lines are never read (`10_state.md` R16, `20_memory.md` R47): two states that differ only
in them take the same step, to states that differ only in them. -/
def Obligations.SerialInputsAreNeverRead : Prop :=
  ∀ (s : State) (d k : BitVec 1),
    step (s.withSerialInputs d k) = onNext (fun t => t.withSerialInputs d k) (step s)

/-- The trace only grows (`00_scope.md` R8): a step keeps every event there was. -/
def Obligations.TraceOnlyGrows : Prop :=
  ∀ s t : State, step s = .next t → ∃ evs, t.trace = s.trace ++ evs

/-- A held key repeats (`70_reset_and_hazards.md` R233): from a boundary, two turns whose passes sample the same columns and
latch a key with a character send that character's frame twice, the second after another post-press delay; shift-lock
must not be among the keys pressed, since it would change the second character. The spec's
decisions in it are those of `DISPATCH` for one key (log entries 8, 9, 24). -/
def Obligations.HeldKeyRepeats : Prop :=
  ∀ (s : State) (k : Press) (ch : Byte), s.AtBoundary → s.ticks.supplies 382 = true →
    s.cols.drop 8 = s.samples 8 → s.cols.length = 16 →
    seen Config.codeShiftLock (presses s.params (s.samples 8)) = false →
    lastKey (presses s.params (s.samples 8)) = some k →
    ch = charFor s.params s.shiftLock (resolvingPresses s.params (presses s.params (s.samples 8))) k.code →
    ch ≠ 0#8 → ∃ t, execAll [.dispatch, .dispatch] s = .next t ∧
      t.trace = s.trace ++ passEvents (s.samples 8) ++ [.hold 115] ++ frameEvents ch ++
        passEvents (s.samples 8) ++ [.hold 115] ++ frameEvents ch
end

