-- ==== Sys2Proof/Laws/Encoding.lean ====
section
/-! SUPPORT. The command word: fields of a word put together from its parts, and what the decoder's check of the fixed bits
says. -/

namespace Sys2Proof

/-- The bits of a word are those of its `arg` and, above them, of its `op`. -/
theorem getLsbD_wordOf (op : BitVec 4) (arg : BitVec 16) (k : Nat) :
    (wordOf op arg).getLsbD k = if k < 16 then arg.getLsbD k else op.getLsbD (k - 16) := by
  rw [wordOf, BitVec.getLsbD_append]

@[simp] theorem getElem_wordOf (op : BitVec 4) (arg : BitVec 16) (k : Nat) (h : k < 20) :
    (wordOf op arg)[k] = if k < 16 then arg.getLsbD k else op.getLsbD (k - 16) := by
  rw [← BitVec.getLsbD_eq_getElem, getLsbD_wordOf]

/-- The bits of an operand at its place. -/
@[simp] theorem getLsbD_argField {n : Nat} (lo : Nat) (v : BitVec n) (k : Nat) :
    (argField lo v).getLsbD k = (decide (k < 16) && !decide (k < lo) && v.getLsbD (k - lo)) := by
  simp only [argField, BitVec.getLsbD_shiftLeft, BitVec.getLsbD_setWidth]
  by_cases h : k < 16
  · simp [h, show k - lo < 16 by omega]
  · simp [h]

@[simp] theorem getElem_argField {n : Nat} (lo : Nat) (v : BitVec n) (k : Nat) (h : k < 16) :
    (argField lo v)[k] = (!decide (k < lo) && v.getLsbD (k - lo)) := by
  rw [← BitVec.getLsbD_eq_getElem, getLsbD_argField]
  simp [h]

@[simp] theorem getLsbD_argBit (lo : Nat) (b : Bool) (k : Nat) :
    (argBit lo b).getLsbD k = (decide (k < 16) && decide (k = lo) && b) := by
  rw [argBit, getLsbD_argField, BitVec.getLsbD_ofBool]
  by_cases h : k = lo
  · subst h; simp
  · by_cases h' : k < lo
    · simp [h', h]
    · simp [h, h', show k - lo ≠ 0 by omega]

@[simp] theorem getElem_argBit (lo : Nat) (b : Bool) (k : Nat) (h : k < 16) :
    (argBit lo b)[k] = (decide (k = lo) && b) := by
  rw [← BitVec.getLsbD_eq_getElem, getLsbD_argBit]
  simp [h]

/-- The operation number of a word. -/
@[simp] theorem opField_wordOf (op : BitVec 4) (arg : BitVec 16) : opField (wordOf op arg) = op := by
  refine BitVec.eq_of_getLsbD_eq fun k hk => ?_
  rw [opField, BitVec.getLsbD_extractLsb', getLsbD_wordOf]
  simp [hk, show ¬ 16 + k < 16 by omega]

/-- A slice of a word inside its `arg`. -/
theorem extractLsb'_wordOf (op : BitVec 4) (arg : BitVec 16) {lo len : Nat} (h : lo + len ≤ 16) :
    (wordOf op arg).extractLsb' lo len = arg.extractLsb' lo len := by
  refine BitVec.eq_of_getLsbD_eq fun k hk => ?_
  rw [BitVec.getLsbD_extractLsb', BitVec.getLsbD_extractLsb', getLsbD_wordOf, if_pos (by omega)]

/-- The check of the fixed bits either gives the operation or refuses. -/
theorem whenFixed_ok {w mask pattern : CmdWord} {i j : Instr} :
    whenFixed w mask pattern i = .ok j ↔ w &&& mask = pattern ∧ i = j := by
  unfold whenFixed
  split <;> simp_all

theorem whenFixed_error {w mask pattern : CmdWord} {i : Instr} {e : DecodeError} :
    whenFixed w mask pattern i = .error e ↔ w &&& mask ≠ pattern ∧ .reservedArgBits = e := by
  unfold whenFixed
  split <;> simp_all

end Sys2Proof
end

