-- ==== Sys2Proof/Laws/State.lean ====
section
/-! SUPPORT. One lemma per field for each named update of State (the port, slot, result and sequencer writes of
`Machine/Ops.lean`): which field it sets, and that it leaves every other one. -/

namespace Sys2Proof.Machine

section
variable (s : State) (i : Slot) (v : Byte)
@[simp] theorem State.writeSlot_seq : (s.writeSlot i v).seq = s.seq := rfl
@[simp] theorem State.writeSlot_keyHit : (s.writeSlot i v).keyHit = s.keyHit := rfl
@[simp] theorem State.writeSlot_shift : (s.writeSlot i v).shift = s.shift := rfl
@[simp] theorem State.writeSlot_shiftLock : (s.writeSlot i v).shiftLock = s.shiftLock := rfl
@[simp] theorem State.writeSlot_ctrl : (s.writeSlot i v).ctrl = s.ctrl := rfl
@[simp] theorem State.writeSlot_func : (s.writeSlot i v).func = s.func := rfl
@[simp] theorem State.writeSlot_khCode : (s.writeSlot i v).khCode = s.khCode := rfl
@[simp] theorem State.writeSlot_khChar : (s.writeSlot i v).khChar = s.khChar := rfl
@[simp] theorem State.writeSlot_khRow : (s.writeSlot i v).khRow = s.khRow := rfl
@[simp] theorem State.writeSlot_khCol : (s.writeSlot i v).khCol = s.khCol := rfl
@[simp] theorem State.writeSlot_buf : (s.writeSlot i v).buf = s.buf.write i.val v := rfl
@[simp] theorem State.writeSlot_head : (s.writeSlot i v).head = s.head := rfl
@[simp] theorem State.writeSlot_tail : (s.writeSlot i v).tail = s.tail := rfl
@[simp] theorem State.writeSlot_txSr : (s.writeSlot i v).txSr = s.txSr := rfl
@[simp] theorem State.writeSlot_bitIdx : (s.writeSlot i v).bitIdx = s.bitIdx := rfl
@[simp] theorem State.writeSlot_data : (s.writeSlot i v).data = s.data := rfl
@[simp] theorem State.writeSlot_clock : (s.writeSlot i v).clock = s.clock := rfl
@[simp] theorem State.writeSlot_rowN : (s.writeSlot i v).rowN = s.rowN := rfl
@[simp] theorem State.writeSlot_scanRet : (s.writeSlot i v).scanRet = s.scanRet := rfl
@[simp] theorem State.writeSlot_rowIdx : (s.writeSlot i v).rowIdx = s.rowIdx := rfl
@[simp] theorem State.writeSlot_colIdx : (s.writeSlot i v).colIdx = s.colIdx := rfl
@[simp] theorem State.writeSlot_dlyCnt : (s.writeSlot i v).dlyCnt = s.dlyCnt := rfl
@[simp] theorem State.writeSlot_params : (s.writeSlot i v).params = s.params := rfl
@[simp] theorem State.writeSlot_result : (s.writeSlot i v).result = s.result := rfl
@[simp] theorem State.writeSlot_trace : (s.writeSlot i v).trace = s.trace := rfl
@[simp] theorem State.writeSlot_freeCtr : (s.writeSlot i v).freeCtr = s.freeCtr := rfl
@[simp] theorem State.writeSlot_cols : (s.writeSlot i v).cols = s.cols := rfl
@[simp] theorem State.writeSlot_ticks : (s.writeSlot i v).ticks = s.ticks := rfl
@[simp] theorem State.writeSlot_rst : (s.writeSlot i v).rst = s.rst := rfl
@[simp] theorem State.writeSlot_cmds : (s.writeSlot i v).cmds = s.cmds := rfl
@[simp] theorem State.writeSlot_dataIn : (s.writeSlot i v).dataIn = s.dataIn := rfl
@[simp] theorem State.writeSlot_clkIn : (s.writeSlot i v).clkIn = s.clkIn := rfl
end

section
variable (s : State) (r : CmdResult)
@[simp] theorem State.answer_seq : (s.answer r).seq = s.seq := rfl
@[simp] theorem State.answer_keyHit : (s.answer r).keyHit = s.keyHit := rfl
@[simp] theorem State.answer_shift : (s.answer r).shift = s.shift := rfl
@[simp] theorem State.answer_shiftLock : (s.answer r).shiftLock = s.shiftLock := rfl
@[simp] theorem State.answer_ctrl : (s.answer r).ctrl = s.ctrl := rfl
@[simp] theorem State.answer_func : (s.answer r).func = s.func := rfl
@[simp] theorem State.answer_khCode : (s.answer r).khCode = s.khCode := rfl
@[simp] theorem State.answer_khChar : (s.answer r).khChar = s.khChar := rfl
@[simp] theorem State.answer_khRow : (s.answer r).khRow = s.khRow := rfl
@[simp] theorem State.answer_khCol : (s.answer r).khCol = s.khCol := rfl
@[simp] theorem State.answer_buf : (s.answer r).buf = s.buf := rfl
@[simp] theorem State.answer_head : (s.answer r).head = s.head := rfl
@[simp] theorem State.answer_tail : (s.answer r).tail = s.tail := rfl
@[simp] theorem State.answer_txSr : (s.answer r).txSr = s.txSr := rfl
@[simp] theorem State.answer_bitIdx : (s.answer r).bitIdx = s.bitIdx := rfl
@[simp] theorem State.answer_data : (s.answer r).data = s.data := rfl
@[simp] theorem State.answer_clock : (s.answer r).clock = s.clock := rfl
@[simp] theorem State.answer_rowN : (s.answer r).rowN = s.rowN := rfl
@[simp] theorem State.answer_scanRet : (s.answer r).scanRet = s.scanRet := rfl
@[simp] theorem State.answer_rowIdx : (s.answer r).rowIdx = s.rowIdx := rfl
@[simp] theorem State.answer_colIdx : (s.answer r).colIdx = s.colIdx := rfl
@[simp] theorem State.answer_dlyCnt : (s.answer r).dlyCnt = s.dlyCnt := rfl
@[simp] theorem State.answer_params : (s.answer r).params = s.params := rfl
@[simp] theorem State.answer_result : (s.answer r).result = r := rfl
@[simp] theorem State.answer_trace : (s.answer r).trace = s.trace := rfl
@[simp] theorem State.answer_freeCtr : (s.answer r).freeCtr = s.freeCtr := rfl
@[simp] theorem State.answer_cols : (s.answer r).cols = s.cols := rfl
@[simp] theorem State.answer_ticks : (s.answer r).ticks = s.ticks := rfl
@[simp] theorem State.answer_rst : (s.answer r).rst = s.rst := rfl
@[simp] theorem State.answer_cmds : (s.answer r).cmds = s.cmds := rfl
@[simp] theorem State.answer_dataIn : (s.answer r).dataIn = s.dataIn := rfl
@[simp] theorem State.answer_clkIn : (s.answer r).clkIn = s.clkIn := rfl
end

section
variable (s : State) (q : Seq)
@[simp] theorem State.goto_seq : (s.goto q).seq = q := rfl
@[simp] theorem State.goto_keyHit : (s.goto q).keyHit = s.keyHit := rfl
@[simp] theorem State.goto_shift : (s.goto q).shift = s.shift := rfl
@[simp] theorem State.goto_shiftLock : (s.goto q).shiftLock = s.shiftLock := rfl
@[simp] theorem State.goto_ctrl : (s.goto q).ctrl = s.ctrl := rfl
@[simp] theorem State.goto_func : (s.goto q).func = s.func := rfl
@[simp] theorem State.goto_khCode : (s.goto q).khCode = s.khCode := rfl
@[simp] theorem State.goto_khChar : (s.goto q).khChar = s.khChar := rfl
@[simp] theorem State.goto_khRow : (s.goto q).khRow = s.khRow := rfl
@[simp] theorem State.goto_khCol : (s.goto q).khCol = s.khCol := rfl
@[simp] theorem State.goto_buf : (s.goto q).buf = s.buf := rfl
@[simp] theorem State.goto_head : (s.goto q).head = s.head := rfl
@[simp] theorem State.goto_tail : (s.goto q).tail = s.tail := rfl
@[simp] theorem State.goto_txSr : (s.goto q).txSr = s.txSr := rfl
@[simp] theorem State.goto_bitIdx : (s.goto q).bitIdx = s.bitIdx := rfl
@[simp] theorem State.goto_data : (s.goto q).data = s.data := rfl
@[simp] theorem State.goto_clock : (s.goto q).clock = s.clock := rfl
@[simp] theorem State.goto_rowN : (s.goto q).rowN = s.rowN := rfl
@[simp] theorem State.goto_scanRet : (s.goto q).scanRet = s.scanRet := rfl
@[simp] theorem State.goto_rowIdx : (s.goto q).rowIdx = s.rowIdx := rfl
@[simp] theorem State.goto_colIdx : (s.goto q).colIdx = s.colIdx := rfl
@[simp] theorem State.goto_dlyCnt : (s.goto q).dlyCnt = s.dlyCnt := rfl
@[simp] theorem State.goto_params : (s.goto q).params = s.params := rfl
@[simp] theorem State.goto_result : (s.goto q).result = s.result := rfl
@[simp] theorem State.goto_trace : (s.goto q).trace = s.trace := rfl
@[simp] theorem State.goto_freeCtr : (s.goto q).freeCtr = s.freeCtr := rfl
@[simp] theorem State.goto_cols : (s.goto q).cols = s.cols := rfl
@[simp] theorem State.goto_ticks : (s.goto q).ticks = s.ticks := rfl
@[simp] theorem State.goto_rst : (s.goto q).rst = s.rst := rfl
@[simp] theorem State.goto_cmds : (s.goto q).cmds = s.cmds := rfl
@[simp] theorem State.goto_dataIn : (s.goto q).dataIn = s.dataIn := rfl
@[simp] theorem State.goto_clkIn : (s.goto q).clkIn = s.clkIn := rfl
end

section
variable (s : State) (p : Byte)
@[simp] theorem State.driveRow_seq : (s.driveRow p).seq = s.seq := rfl
@[simp] theorem State.driveRow_keyHit : (s.driveRow p).keyHit = s.keyHit := rfl
@[simp] theorem State.driveRow_shift : (s.driveRow p).shift = s.shift := rfl
@[simp] theorem State.driveRow_shiftLock : (s.driveRow p).shiftLock = s.shiftLock := rfl
@[simp] theorem State.driveRow_ctrl : (s.driveRow p).ctrl = s.ctrl := rfl
@[simp] theorem State.driveRow_func : (s.driveRow p).func = s.func := rfl
@[simp] theorem State.driveRow_khCode : (s.driveRow p).khCode = s.khCode := rfl
@[simp] theorem State.driveRow_khChar : (s.driveRow p).khChar = s.khChar := rfl
@[simp] theorem State.driveRow_khRow : (s.driveRow p).khRow = s.khRow := rfl
@[simp] theorem State.driveRow_khCol : (s.driveRow p).khCol = s.khCol := rfl
@[simp] theorem State.driveRow_buf : (s.driveRow p).buf = s.buf := rfl
@[simp] theorem State.driveRow_head : (s.driveRow p).head = s.head := rfl
@[simp] theorem State.driveRow_tail : (s.driveRow p).tail = s.tail := rfl
@[simp] theorem State.driveRow_txSr : (s.driveRow p).txSr = s.txSr := rfl
@[simp] theorem State.driveRow_bitIdx : (s.driveRow p).bitIdx = s.bitIdx := rfl
@[simp] theorem State.driveRow_data : (s.driveRow p).data = s.data := rfl
@[simp] theorem State.driveRow_clock : (s.driveRow p).clock = s.clock := rfl
@[simp] theorem State.driveRow_rowN : (s.driveRow p).rowN = p := rfl
@[simp] theorem State.driveRow_scanRet : (s.driveRow p).scanRet = s.scanRet := rfl
@[simp] theorem State.driveRow_rowIdx : (s.driveRow p).rowIdx = s.rowIdx := rfl
@[simp] theorem State.driveRow_colIdx : (s.driveRow p).colIdx = s.colIdx := rfl
@[simp] theorem State.driveRow_dlyCnt : (s.driveRow p).dlyCnt = s.dlyCnt := rfl
@[simp] theorem State.driveRow_params : (s.driveRow p).params = s.params := rfl
@[simp] theorem State.driveRow_result : (s.driveRow p).result = s.result := rfl
@[simp] theorem State.driveRow_trace : (s.driveRow p).trace = s.trace ++ [.row p] := rfl
@[simp] theorem State.driveRow_freeCtr : (s.driveRow p).freeCtr = s.freeCtr := rfl
@[simp] theorem State.driveRow_cols : (s.driveRow p).cols = s.cols := rfl
@[simp] theorem State.driveRow_ticks : (s.driveRow p).ticks = s.ticks := rfl
@[simp] theorem State.driveRow_rst : (s.driveRow p).rst = s.rst := rfl
@[simp] theorem State.driveRow_cmds : (s.driveRow p).cmds = s.cmds := rfl
@[simp] theorem State.driveRow_dataIn : (s.driveRow p).dataIn = s.dataIn := rfl
@[simp] theorem State.driveRow_clkIn : (s.driveRow p).clkIn = s.clkIn := rfl
end

section
variable (s : State)
@[simp] theorem State.takeColumn_seq : s.takeColumn.seq = s.seq := rfl
@[simp] theorem State.takeColumn_keyHit : s.takeColumn.keyHit = s.keyHit := rfl
@[simp] theorem State.takeColumn_shift : s.takeColumn.shift = s.shift := rfl
@[simp] theorem State.takeColumn_shiftLock : s.takeColumn.shiftLock = s.shiftLock := rfl
@[simp] theorem State.takeColumn_ctrl : s.takeColumn.ctrl = s.ctrl := rfl
@[simp] theorem State.takeColumn_func : s.takeColumn.func = s.func := rfl
@[simp] theorem State.takeColumn_khCode : s.takeColumn.khCode = s.khCode := rfl
@[simp] theorem State.takeColumn_khChar : s.takeColumn.khChar = s.khChar := rfl
@[simp] theorem State.takeColumn_khRow : s.takeColumn.khRow = s.khRow := rfl
@[simp] theorem State.takeColumn_khCol : s.takeColumn.khCol = s.khCol := rfl
@[simp] theorem State.takeColumn_buf : s.takeColumn.buf = s.buf := rfl
@[simp] theorem State.takeColumn_head : s.takeColumn.head = s.head := rfl
@[simp] theorem State.takeColumn_tail : s.takeColumn.tail = s.tail := rfl
@[simp] theorem State.takeColumn_txSr : s.takeColumn.txSr = s.txSr := rfl
@[simp] theorem State.takeColumn_bitIdx : s.takeColumn.bitIdx = s.bitIdx := rfl
@[simp] theorem State.takeColumn_data : s.takeColumn.data = s.data := rfl
@[simp] theorem State.takeColumn_clock : s.takeColumn.clock = s.clock := rfl
@[simp] theorem State.takeColumn_rowN : s.takeColumn.rowN = s.rowN := rfl
@[simp] theorem State.takeColumn_scanRet : s.takeColumn.scanRet = s.scanRet := rfl
@[simp] theorem State.takeColumn_rowIdx : s.takeColumn.rowIdx = s.rowIdx := rfl
@[simp] theorem State.takeColumn_colIdx : s.takeColumn.colIdx = s.colIdx := rfl
@[simp] theorem State.takeColumn_dlyCnt : s.takeColumn.dlyCnt = s.dlyCnt := rfl
@[simp] theorem State.takeColumn_params : s.takeColumn.params = s.params := rfl
@[simp] theorem State.takeColumn_result : s.takeColumn.result = s.result := rfl
@[simp] theorem State.takeColumn_trace : s.takeColumn.trace = s.trace ++ [.col s.nextColumn] := rfl
@[simp] theorem State.takeColumn_freeCtr : s.takeColumn.freeCtr = s.freeCtr + 1 := rfl
@[simp] theorem State.takeColumn_cols : s.takeColumn.cols = s.cols.tail := rfl
@[simp] theorem State.takeColumn_ticks : s.takeColumn.ticks = s.ticks := rfl
@[simp] theorem State.takeColumn_rst : s.takeColumn.rst = s.rst := rfl
@[simp] theorem State.takeColumn_cmds : s.takeColumn.cmds = s.cmds := rfl
@[simp] theorem State.takeColumn_dataIn : s.takeColumn.dataIn = s.dataIn := rfl
@[simp] theorem State.takeColumn_clkIn : s.takeColumn.clkIn = s.clkIn := rfl
end

section
variable (s : State) (l : Level)
@[simp] theorem State.driveData_seq : (s.driveData l).seq = s.seq := rfl
@[simp] theorem State.driveData_keyHit : (s.driveData l).keyHit = s.keyHit := rfl
@[simp] theorem State.driveData_shift : (s.driveData l).shift = s.shift := rfl
@[simp] theorem State.driveData_shiftLock : (s.driveData l).shiftLock = s.shiftLock := rfl
@[simp] theorem State.driveData_ctrl : (s.driveData l).ctrl = s.ctrl := rfl
@[simp] theorem State.driveData_func : (s.driveData l).func = s.func := rfl
@[simp] theorem State.driveData_khCode : (s.driveData l).khCode = s.khCode := rfl
@[simp] theorem State.driveData_khChar : (s.driveData l).khChar = s.khChar := rfl
@[simp] theorem State.driveData_khRow : (s.driveData l).khRow = s.khRow := rfl
@[simp] theorem State.driveData_khCol : (s.driveData l).khCol = s.khCol := rfl
@[simp] theorem State.driveData_buf : (s.driveData l).buf = s.buf := rfl
@[simp] theorem State.driveData_head : (s.driveData l).head = s.head := rfl
@[simp] theorem State.driveData_tail : (s.driveData l).tail = s.tail := rfl
@[simp] theorem State.driveData_txSr : (s.driveData l).txSr = s.txSr := rfl
@[simp] theorem State.driveData_bitIdx : (s.driveData l).bitIdx = s.bitIdx := rfl
@[simp] theorem State.driveData_data : (s.driveData l).data = l := rfl
@[simp] theorem State.driveData_clock : (s.driveData l).clock = s.clock := rfl
@[simp] theorem State.driveData_rowN : (s.driveData l).rowN = s.rowN := rfl
@[simp] theorem State.driveData_scanRet : (s.driveData l).scanRet = s.scanRet := rfl
@[simp] theorem State.driveData_rowIdx : (s.driveData l).rowIdx = s.rowIdx := rfl
@[simp] theorem State.driveData_colIdx : (s.driveData l).colIdx = s.colIdx := rfl
@[simp] theorem State.driveData_dlyCnt : (s.driveData l).dlyCnt = s.dlyCnt := rfl
@[simp] theorem State.driveData_params : (s.driveData l).params = s.params := rfl
@[simp] theorem State.driveData_result : (s.driveData l).result = s.result := rfl
@[simp] theorem State.driveData_trace : (s.driveData l).trace = s.trace ++ [.d l] := rfl
@[simp] theorem State.driveData_freeCtr : (s.driveData l).freeCtr = s.freeCtr := rfl
@[simp] theorem State.driveData_cols : (s.driveData l).cols = s.cols := rfl
@[simp] theorem State.driveData_ticks : (s.driveData l).ticks = s.ticks := rfl
@[simp] theorem State.driveData_rst : (s.driveData l).rst = s.rst := rfl
@[simp] theorem State.driveData_cmds : (s.driveData l).cmds = s.cmds := rfl
@[simp] theorem State.driveData_dataIn : (s.driveData l).dataIn = s.dataIn := rfl
@[simp] theorem State.driveData_clkIn : (s.driveData l).clkIn = s.clkIn := rfl
end

section
variable (s : State) (l : Level)
@[simp] theorem State.driveClock_seq : (s.driveClock l).seq = s.seq := rfl
@[simp] theorem State.driveClock_keyHit : (s.driveClock l).keyHit = s.keyHit := rfl
@[simp] theorem State.driveClock_shift : (s.driveClock l).shift = s.shift := rfl
@[simp] theorem State.driveClock_shiftLock : (s.driveClock l).shiftLock = s.shiftLock := rfl
@[simp] theorem State.driveClock_ctrl : (s.driveClock l).ctrl = s.ctrl := rfl
@[simp] theorem State.driveClock_func : (s.driveClock l).func = s.func := rfl
@[simp] theorem State.driveClock_khCode : (s.driveClock l).khCode = s.khCode := rfl
@[simp] theorem State.driveClock_khChar : (s.driveClock l).khChar = s.khChar := rfl
@[simp] theorem State.driveClock_khRow : (s.driveClock l).khRow = s.khRow := rfl
@[simp] theorem State.driveClock_khCol : (s.driveClock l).khCol = s.khCol := rfl
@[simp] theorem State.driveClock_buf : (s.driveClock l).buf = s.buf := rfl
@[simp] theorem State.driveClock_head : (s.driveClock l).head = s.head := rfl
@[simp] theorem State.driveClock_tail : (s.driveClock l).tail = s.tail := rfl
@[simp] theorem State.driveClock_txSr : (s.driveClock l).txSr = s.txSr := rfl
@[simp] theorem State.driveClock_bitIdx : (s.driveClock l).bitIdx = s.bitIdx := rfl
@[simp] theorem State.driveClock_data : (s.driveClock l).data = s.data := rfl
@[simp] theorem State.driveClock_clock : (s.driveClock l).clock = l := rfl
@[simp] theorem State.driveClock_rowN : (s.driveClock l).rowN = s.rowN := rfl
@[simp] theorem State.driveClock_scanRet : (s.driveClock l).scanRet = s.scanRet := rfl
@[simp] theorem State.driveClock_rowIdx : (s.driveClock l).rowIdx = s.rowIdx := rfl
@[simp] theorem State.driveClock_colIdx : (s.driveClock l).colIdx = s.colIdx := rfl
@[simp] theorem State.driveClock_dlyCnt : (s.driveClock l).dlyCnt = s.dlyCnt := rfl
@[simp] theorem State.driveClock_params : (s.driveClock l).params = s.params := rfl
@[simp] theorem State.driveClock_result : (s.driveClock l).result = s.result := rfl
@[simp] theorem State.driveClock_trace : (s.driveClock l).trace = s.trace ++ [.k l] := rfl
@[simp] theorem State.driveClock_freeCtr : (s.driveClock l).freeCtr = s.freeCtr := rfl
@[simp] theorem State.driveClock_cols : (s.driveClock l).cols = s.cols := rfl
@[simp] theorem State.driveClock_ticks : (s.driveClock l).ticks = s.ticks := rfl
@[simp] theorem State.driveClock_rst : (s.driveClock l).rst = s.rst := rfl
@[simp] theorem State.driveClock_cmds : (s.driveClock l).cmds = s.cmds := rfl
@[simp] theorem State.driveClock_dataIn : (s.driveClock l).dataIn = s.dataIn := rfl
@[simp] theorem State.driveClock_clkIn : (s.driveClock l).clkIn = s.clkIn := rfl
end

end Sys2Proof.Machine
end

