-- ==== Sys2Proof/Laws/Memory.lean ====
section
/-! SUPPORT. The ring buffer memory: what a read sees after a write, and that every write keeps the canonical form. -/

namespace Sys2Proof.Machine

@[simp] theorem Memory.read_nil (a : Nat) : Memory.read [] a = Memory.unlisted := rfl

@[simp] theorem Memory.read_cons (c : Host.Cell) (m : Memory) (a : Nat) :
    Memory.read (c :: m) a = if c.1 = a then c.2 else Memory.read m a := rfl

/-- A slot without an entry reads as an unlisted slot. -/
theorem Memory.read_of_unlisted {m : Memory} {a : Nat} (h : ∀ c ∈ m, c.1 ≠ a) : m.read a = Memory.unlisted := by
  induction m with
  | nil => rfl
  | cons c m ih =>
    rw [read_cons, if_neg (h c (by simp)), ih fun d hd => h d (by simp [hd])]

theorem Memory.read_erase_self (m : Memory) (a : Nat) : (m.erase a).read a = Memory.unlisted :=
  read_of_unlisted fun c hc => by simpa [erase] using (List.mem_filter.mp hc).2

theorem Memory.read_erase_of_ne (m : Memory) {a b : Nat} (h : b ≠ a) : (m.erase a).read b = m.read b := by
  induction m with
  | nil => rfl
  | cons c m ih =>
    by_cases hc : c.1 = a
    · have : Memory.erase (c :: m) a = Memory.erase m a := by simp [erase, hc]
      rw [this, ih, read_cons, if_neg (by omega : ¬ c.1 = b)]
    · have : Memory.erase (c :: m) a = c :: Memory.erase m a := by simp [erase, hc]
      rw [this, read_cons, read_cons, ih]

theorem Memory.read_enter_self {m : Memory} {a : Nat} (h : ∀ c ∈ m, c.1 ≠ a) (v : Byte) :
    (m.enter a v).read a = v := by
  induction m with
  | nil => simp [enter]
  | cons c m ih =>
    rw [enter]
    split
    · simp
    · rw [read_cons, if_neg (h c (by simp)), ih fun d hd => h d (by simp [hd])]

theorem Memory.read_enter_of_ne (m : Memory) {a b : Nat} (v : Byte) (h : b ≠ a) :
    (m.enter a v).read b = m.read b := by
  induction m with
  | nil => simp [enter, Ne.symm h]
  | cons c m ih =>
    rw [enter]
    split
    · rw [read_cons, if_neg (Ne.symm h)]
    · rw [read_cons, read_cons, ih]

/-- A read after a write: the value written at its slot, what was there at every other slot. -/
theorem Memory.read_write (m : Memory) (a b : Nat) (v : Byte) :
    (m.write a v).read b = if b = a then v else m.read b := by
  unfold write
  have free : ∀ c ∈ m.erase a, c.1 ≠ a := fun c hc => by simpa [erase] using (List.mem_filter.mp hc).2
  split
  case isTrue hv =>
    by_cases hb : b = a
    · rw [hb, if_pos rfl, read_erase_self, hv]
    · rw [if_neg hb, read_erase_of_ne m hb]
  case isFalse =>
    by_cases hb : b = a
    · rw [hb, if_pos rfl, read_enter_self free]
    · rw [if_neg hb, read_enter_of_ne _ v hb, read_erase_of_ne m hb]

@[simp] theorem Memory.wf_nil : Memory.wf [] := by simp [wf]

/-- Erasing an entry keeps the canonical form. -/
theorem Memory.wf_erase {m : Memory} (h : m.wf) (a : Nat) : (m.erase a).wf :=
  ⟨h.1.filter _, fun c hc => h.2 c (List.mem_filter.mp hc).1⟩

theorem Memory.mem_enter {m : Memory} {a : Nat} {v : Byte} {c : Host.Cell} (hc : c ∈ m.enter a v) :
    c = (a, v) ∨ c ∈ m := by
  induction m with
  | nil => simpa [enter] using hc
  | cons d m ih =>
    rw [enter] at hc
    split at hc
    · simpa using hc
    · rcases List.mem_cons.mp hc with rfl | hc
      · simp
      · exact (ih hc).imp_right fun h => List.mem_cons_of_mem _ h

/-- Entering a slot that has no entry keeps the canonical form. -/
theorem Memory.wf_enter {m : Memory} {a : Nat} {v : Byte} (h : m.wf) (free : ∀ c ∈ m, c.1 ≠ a)
    (ha : a < Config.ringSlots) (hv : v ≠ Memory.unlisted) : (m.enter a v).wf := by
  refine ⟨?_, fun c hc => ?_⟩
  · have hp := h.1
    clear h
    induction m with
    | nil => simp [enter]
    | cons d m ih =>
      rw [List.pairwise_cons] at hp
      rw [enter]
      split
      case isTrue had =>
        refine List.pairwise_cons.mpr ⟨fun c hc => ?_, List.pairwise_cons.mpr hp⟩
        rcases List.mem_cons.mp hc with rfl | hc
        · exact had
        · exact had.trans (hp.1 c hc)
      case isFalse had =>
        have hda : d.1 < a := by have := free d (by simp); omega
        refine List.pairwise_cons.mpr ⟨fun c hc => ?_, ih (fun c hc => free c (by simp [hc])) hp.2⟩
        rcases mem_enter hc with rfl | hc
        · exact hda
        · exact hp.1 c hc
  · rcases mem_enter hc with rfl | hc
    · exact ⟨ha, hv⟩
    · exact h.2 c hc

/-- Every write to a slot that exists keeps the canonical form. -/
theorem Memory.wf_write {m : Memory} (h : m.wf) {a : Nat} (ha : a < Config.ringSlots) (v : Byte) :
    (m.write a v).wf := by
  unfold write
  split
  · exact wf_erase h a
  case isFalse hv =>
    exact wf_enter (wf_erase h a) (fun c hc => by simpa [erase] using (List.mem_filter.mp hc).2) ha hv

/-- In canonical form an entry is what a read of its slot gives. -/
theorem Memory.read_of_mem {m : Memory} (h : m.wf) {c : Host.Cell} (hc : c ∈ m) : m.read c.1 = c.2 := by
  induction m with
  | nil => cases hc
  | cons d m ih =>
    have hp := List.pairwise_cons.mp h.1
    rcases List.mem_cons.mp hc with rfl | hc
    · simp
    · have := hp.1 c hc
      rw [read_cons, if_neg (by omega)]
      exact ih ⟨hp.2, fun e he => h.2 e (List.mem_cons_of_mem _ he)⟩ hc

/-- Equal memories are equal data: two canonical memories that read alike are one list. -/
theorem Memory.eq_of_read_eq {m m' : Memory} (h : m.wf) (h' : m'.wf) (hr : ∀ a, m.read a = m'.read a) : m = m' := by
  have sub : ∀ {m m' : Memory}, m.wf → m'.wf → (∀ a, m.read a = m'.read a) → m ⊆ m' := by
    intro m m' h h' hr c hc
    have hread := (hr c.1).symm.trans (read_of_mem h hc)
    by_contra hno
    have : ∀ d ∈ m', d.1 ≠ c.1 := by
      intro d hd hdc
      refine hno ?_
      have : d = c := Prod.ext hdc (by rw [← read_of_mem h' hd, hdc, hread])
      exact this ▸ hd
    exact (h.2 c hc).2 (hread.symm.trans (read_of_unlisted this))
  have nodup : ∀ {m : Memory}, m.wf → m.Nodup := fun h => h.1.imp fun hlt heq => by
    subst heq
    exact lt_irrefl _ hlt
  have perm : m.Perm m' := (List.perm_ext_iff_of_nodup (nodup h) (nodup h')).mpr fun c =>
    ⟨fun hc => sub h h' hr hc, fun hc => sub h' h (fun a => (hr a).symm) hc⟩
  exact perm.eq_of_pairwise (fun a b _ _ hab hba => absurd (hab.trans hba) (lt_irrefl _)) h.1 h'.1

theorem State.slot_writeSlot (s : State) (i j : Slot) (v : Byte) :
    (s.writeSlot i v).slot j = if j = i then v else s.slot j := by
  simp [State.slot, Memory.read_write, Fin.ext_iff]

end Sys2Proof.Machine
end

