-- ==== Sys2Proof/Laws/Timing.lean ====
section
/-! SUPPORT. The ticks an operation awaits: what `holdTime` counts, how a tick source is spent, and the one lemma about
`awaiting` that every timed operation uses. -/

namespace Sys2Proof.Machine

@[simp] theorem holdTime_nil : holdTime [] = 0 := rfl
@[simp] theorem holdTime_hold (ms : Nat) (evs : List Event) : holdTime (.hold ms :: evs) = ms + holdTime evs := rfl
@[simp] theorem holdTime_row (p : Byte) (evs : List Event) : holdTime (.row p :: evs) = holdTime evs := rfl
@[simp] theorem holdTime_col (v : Byte) (evs : List Event) : holdTime (.col v :: evs) = holdTime evs := rfl
@[simp] theorem holdTime_d (l : Level) (evs : List Event) : holdTime (.d l :: evs) = holdTime evs := rfl
@[simp] theorem holdTime_k (l : Level) (evs : List Event) : holdTime (.k l :: evs) = holdTime evs := rfl

@[simp] theorem holdTime_append (xs ys : List Event) : holdTime (xs ++ ys) = holdTime xs + holdTime ys := by
  induction xs with
  | nil => simp
  | cons e xs ih => cases e <;> simp [ih, Nat.add_assoc]

@[simp] theorem TickSource.supplies_forever (n : Nat) : TickSource.forever.supplies n = true := rfl
@[simp] theorem TickSource.supplies_left (m n : Nat) : (TickSource.left m).supplies n = decide (n ≤ m) := rfl
@[simp] theorem TickSource.spend_forever (n : Nat) : TickSource.forever.spend n = .forever := rfl
@[simp] theorem TickSource.spend_left (m n : Nat) : (TickSource.left m).spend n = .left (m - n) := rfl

@[simp] theorem TickSource.supplies_zero (ticks : TickSource) : ticks.supplies 0 = true := by
  cases ticks <;> simp

@[simp] theorem TickSource.spend_zero (ticks : TickSource) : ticks.spend 0 = ticks := by
  cases ticks <;> simp

/-- Ticks for two waits are ticks for the first and then for the second. -/
theorem TickSource.supplies_add (ticks : TickSource) (a b : Nat) :
    ticks.supplies (a + b) = (ticks.supplies a && (ticks.spend a).supplies b) := by
  cases ticks with
  | forever => rfl
  | left n =>
    simp only [supplies_left, spend_left, ← Bool.decide_and, decide_eq_decide]
    omega

theorem TickSource.spend_add (ticks : TickSource) (a b : Nat) :
    ticks.spend (a + b) = (ticks.spend a).spend b := by
  cases ticks with
  | forever => rfl
  | left n => simp [Nat.sub_sub]

/-- A tick source that delivers many ticks delivers few. -/
theorem TickSource.supplies_mono {ticks : TickSource} {a b : Nat} (h : ticks.supplies b = true) (hab : a ≤ b) :
    ticks.supplies a = true := by
  cases ticks with
  | forever => rfl
  | left n =>
    simp only [supplies_left, decide_eq_true_eq] at h ⊢
    omega

theorem newEvents_of_trace {s t : State} {evs : List Event} (h : t.trace = s.trace ++ evs) :
    newEvents s t = evs := by
  simp [newEvents, h]

/-- What `awaiting` answers of an operation whose events are known. -/
theorem awaiting_of_trace {op : State → State} {s : State} {evs : List Event}
    (h : (op s).trace = s.trace ++ evs) :
    awaiting op s =
      if s.ticks.supplies (holdTime evs) = true then
        .next { op s with ticks := s.ticks.spend (holdTime evs) }
      else .fault .tickStopped := by
  simp [awaiting, newEvents_of_trace h]

/-- An operation that holds nothing ends at once. -/
theorem awaiting_of_no_hold {op : State → State} {s : State} {evs : List Event}
    (h : (op s).trace = s.trace ++ evs) (h0 : holdTime evs = 0) (ht : (op s).ticks = s.ticks) :
    awaiting op s = .next (op s) := by
  rw [awaiting_of_trace h, h0]
  simp [← ht]

/-- Everything `awaiting` can answer: the operation's own state with the ticks spent, or the wait that never ends. -/
theorem awaiting_cases (op : State → State) (s : State) :
    (s.ticks.supplies (holdTime (newEvents s (op s))) = true ∧
      awaiting op s = .next { op s with ticks := s.ticks.spend (holdTime (newEvents s (op s))) }) ∨
    (s.ticks.supplies (holdTime (newEvents s (op s))) = false ∧ awaiting op s = .fault .tickStopped) := by
  cases h : s.ticks.supplies (holdTime (newEvents s (op s))) <;> simp [awaiting, h]

/-- A next state of `awaiting` is the operation's own, but for the ticks. -/
theorem awaiting_next {op : State → State} {s t : State} (h : awaiting op s = .next t) :
    t = { op s with ticks := s.ticks.spend (holdTime (newEvents s (op s))) } := by
  rcases awaiting_cases op s with ⟨-, he⟩ | ⟨-, he⟩ <;> rw [he] at h
  · exact (Host.Outcome.next.inj h).symm
  · cases h

end Sys2Proof.Machine
end

