-- ==== Sys2Proof/Laws/Wire.lean ====
section
/-! SUPPORT. The transmitter in closed form: each operation of `44_transmitter.md` is one record update and the events of
its phases. -/

namespace Sys2Proof.Machine

theorem delay_of_ne {ms : BitVec 16} (h : ms ≠ 0#16) (s : State) :
    delay ms s = { s with dlyCnt := 0#16, trace := s.trace ++ [.hold ms.toNat] } := by
  simp [delay, h]

theorem delay_sigDel (s : State) :
    delay Config.sigDel s = { s with dlyCnt := 0#16, trace := s.trace ++ [.hold 4] } :=
  delay_of_ne (by decide) s

theorem delay_keyrdDel (s : State) :
    delay Config.keyrdDel s = { s with dlyCnt := 0#16, trace := s.trace ++ [.hold 115] } :=
  delay_of_ne (by decide) s

theorem delay_bootDel (s : State) :
    delay Config.bootDel s = { s with dlyCnt := 0#16, trace := s.trace ++ [.hold 1000] } :=
  delay_of_ne (by decide) s

theorem lineIdle_eq (s : State) :
    lineIdle s =
      { s with data := .high, clock := .high, dlyCnt := 0#16, trace := s.trace ++ idleEvents } := by
  simp [lineIdle, delay_sigDel, idleEvents, State.driveData, State.driveClock]

theorem sendStart_eq (s : State) :
    sendStart s =
      { s with data := .low, clock := .low, dlyCnt := 0#16, trace := s.trace ++ startEvents } := by
  simp [sendStart, delay_sigDel, startEvents, State.driveData, State.driveClock]

theorem sendBit_eq (b : Bool) (s : State) :
    sendBit b s =
      { s with data := levelOf b, clock := .low, dlyCnt := 0#16, trace := s.trace ++ bitEvents b } := by
  simp [sendBit, delay_sigDel, bitEvents, State.driveData, State.driveClock]

theorem sendByte_eq (v : Byte) (s : State) :
    sendByte v s =
      { s with
        data := levelOf (v.getLsbD 0), clock := .low, txSr := v, bitIdx := 0#4, dlyCnt := 0#16
        trace := s.trace ++ byteEvents v } := by
  simp [sendByte, sendBits, sendBit_eq, sendStart_eq, byteEvents, bitsMsbFirst]

theorem sendKey_eq (v : Byte) (s : State) :
    sendKey v s =
      { s with
        data := levelOf (v.getLsbD 0), clock := .low, txSr := v, bitIdx := 0#4, dlyCnt := 0#16
        trace := s.trace ++ frameEvents v } := by
  simp [sendKey, sendByte_eq, lineIdle_eq, frameEvents]

@[simp] theorem holdTime_idleEvents : holdTime idleEvents = 4 := rfl
@[simp] theorem holdTime_startEvents : holdTime startEvents = 8 := rfl
@[simp] theorem holdTime_bitEvents (b : Bool) : holdTime (bitEvents b) = 8 := rfl
@[simp] theorem holdTime_byteEvents (v : Byte) : holdTime (byteEvents v) = 72 := by
  simp [byteEvents, bitsMsbFirst]
@[simp] theorem holdTime_frameEvents (v : Byte) : holdTime (frameEvents v) = 76 := by
  simp [frameEvents]

/-- Frames sent one after another take 76 ms each (`70_reset_and_hazards.md` R241). -/
theorem holdTime_frames (cs : List Byte) : holdTime (cs.flatMap frameEvents) = 76 * cs.length := by
  induction cs with
  | nil => rfl
  | cons c cs ih => simp [ih, Nat.mul_add, Nat.add_comm]

end Sys2Proof.Machine
end

