-- ==== Sys2Proof/Laws/Ring.lean ====
section
/-! SUPPORT. The ring buffer: index arithmetic, what `push` and `pop` do to the slots and to the number of unread
characters, the queue they move, and the drain loop. -/

namespace Sys2Proof.Machine

/-- The wrap by comparison is the successor modulo 10 (`43_ringbuffer.md` R144). -/
theorem nextSlot_val (i : Slot) : (nextSlot i).val = (i.val + 1) % 10 := by
  revert i
  decide

theorem nextSlot_ne (i : Slot) : nextSlot i ≠ i := by
  revert i
  decide

/-- The numbers `unread` is computed from, in the form `omega` reads. -/
theorem State.unread_eq (s : State) : s.unread = (s.tail.val + 10 - s.head.val) % 10 := rfl

theorem State.unread_lt (s : State) : s.unread < 10 := Nat.mod_lt _ (by decide)

theorem State.unread_eq_zero (s : State) : s.unread = 0 ↔ s.head = s.tail := by
  have hh := s.head.isLt
  have ht := s.tail.isLt
  rw [State.unread_eq, Fin.ext_iff]
  simp only [Config.ringSlots] at *
  omega

@[simp] theorem push_head (ch : Byte) (s : State) : (push ch s).head = s.head := rfl
@[simp] theorem push_tail (ch : Byte) (s : State) : (push ch s).tail = nextSlot s.tail := rfl

/-- `PUSH` in one record update. -/
theorem push_eq (ch : Byte) (s : State) :
    push ch s =
      { s with
        buf := (s.buf.write s.tail.val ch).write (nextSlot s.tail).val 0#8
        tail := nextSlot s.tail } := rfl

theorem push_read (ch : Byte) (s : State) (a : Nat) :
    (push ch s).buf.read a =
      if a = (nextSlot s.tail).val then 0#8 else if a = s.tail.val then ch else s.buf.read a := by
  simp only [push_eq, Memory.read_write]

theorem pop_of_empty {s : State} (h : s.head = s.tail) : pop s = s := if_pos h

theorem popChar_of_empty {s : State} (h : s.head = s.tail) : popChar s = 0#8 := if_pos h

theorem popChar_of_ne {s : State} (h : s.head ≠ s.tail) : popChar s = s.slot s.head := if_neg h

/-- `POP` of a character in one record update. -/
theorem pop_of_ne {s : State} (h : s.head ≠ s.tail) :
    pop s = { s with buf := s.buf.write s.head.val 0#8, head := nextSlot s.head } := if_neg h

/-- `POP` changes the ring alone. -/
theorem pop_eq (s : State) : pop s = { s with buf := (pop s).buf, head := (pop s).head } := by
  by_cases h : s.head = s.tail
  · rw [pop_of_empty h]
  · rw [pop_of_ne h]

@[simp] theorem pop_tail (s : State) : (pop s).tail = s.tail := by rw [pop_eq]
@[simp] theorem pop_trace (s : State) : (pop s).trace = s.trace := by rw [pop_eq]
@[simp] theorem pop_ticks (s : State) : (pop s).ticks = s.ticks := by rw [pop_eq]

theorem pop_unread {s : State} (h : s.head ≠ s.tail) : (pop s).unread + 1 = s.unread := by
  have hh := s.head.isLt
  have ht := s.tail.isLt
  have hne : s.head.val ≠ s.tail.val := fun he => h (Fin.ext he)
  rw [State.unread_eq, State.unread_eq, pop_of_ne h]
  simp only [nextSlot_val]
  simp only [Config.ringSlots] at *
  omega

theorem push_unread {ch : Byte} {s : State} (h : s.unread < 9) : (push ch s).unread = s.unread + 1 := by
  have hh := s.head.isLt
  have ht := s.tail.isLt
  rw [State.unread_eq] at h ⊢
  rw [State.unread_eq, push_head, push_tail, nextSlot_val]
  simp only [Config.ringSlots] at *
  omega

/-- The ring keeps its canonical form and the empty slot at `tail` (`10_state.md` R31). -/
theorem push_wf {ch : Byte} {s : State} (h : s.buf.wf) : (push ch s).buf.wf :=
  Memory.wf_write (Memory.wf_write h s.tail.isLt ch) (nextSlot s.tail).isLt 0#8

theorem push_tail_slot (ch : Byte) (s : State) : (push ch s).slot (push ch s).tail = 0#8 := by
  simp [State.slot, push_read]

theorem pop_wf {s : State} (h : s.buf.wf) : (pop s).buf.wf := by
  by_cases he : s.head = s.tail
  · rwa [pop_of_empty he]
  · rw [pop_of_ne he]
    exact Memory.wf_write h s.head.isLt 0#8

theorem pop_read {s : State} (h : s.head ≠ s.tail) (a : Nat) :
    (pop s).buf.read a = if a = s.head.val then 0#8 else s.buf.read a := by
  rw [pop_of_ne h]
  simp only [Memory.read_write]

theorem pop_tail_slot {s : State} (h : s.slot s.tail = 0#8) : (pop s).slot (pop s).tail = 0#8 := by
  by_cases he : s.head = s.tail
  · rwa [pop_of_empty he]
  · simp only [State.slot, pop_read he, pop_tail]
    split
    · rfl
    · exact h

/-! The queue. -/

theorem queued_length (s : State) : s.queued.length = s.unread := by simp [State.queued]

theorem queued_of_empty {s : State} (h : s.head = s.tail) : s.queued = [] :=
  List.eq_nil_of_length_eq_zero (by rw [queued_length, s.unread_eq_zero.mpr h])

/-- `POP` takes the oldest character of the queue and leaves the others in order. -/
theorem queued_of_ne {s : State} (h : s.head ≠ s.tail) : s.queued = popChar s :: (pop s).queued := by
  have hu := pop_unread h
  have hlt := s.unread_lt
  have hhead : s.buf.read ((s.head.val + 0) % Config.ringSlots) = popChar s := by
    rw [popChar_of_ne h, State.slot, Nat.add_zero, Nat.mod_eq_of_lt s.head.isLt]
  rw [State.queued, ← hu, List.range_succ_eq_map, List.map_cons, hhead, List.map_map, State.queued]
  congr 1
  refine List.map_congr_left fun n hn => ?_
  have hn := List.mem_range.mp hn
  have hh := s.head.isLt
  rw [pop_read h, pop_of_ne h]
  simp only [Function.comp_apply, nextSlot_val, Config.ringSlots] at *
  rw [if_neg (by omega)]
  congr 1
  omega

theorem toSend_of_stop {s : State} (h : popChar s = 0#8) : s.toSend = [] := by
  by_cases he : s.head = s.tail
  · simp [State.toSend, queued_of_empty he]
  · simp [State.toSend, queued_of_ne he, h]

theorem head_ne_tail_of_popChar {s : State} (h : popChar s ≠ 0#8) : s.head ≠ s.tail :=
  fun he => h (popChar_of_empty he)

theorem toSend_of_send {s : State} (h : popChar s ≠ 0#8) : s.toSend = popChar s :: (pop s).toSend := by
  simp [State.toSend, queued_of_ne (head_ne_tail_of_popChar h), h]

theorem toSend_length_le (s : State) : s.toSend.length ≤ 9 := by
  have h := (List.takeWhile_sublist (fun ch : Byte => ch != 0#8) (l := s.queued)).length_le
  rw [queued_length] at h
  have := s.unread_lt
  exact h.trans (by omega)

/-! The drain loop (`45_dispatch.md` R181). -/

/-- Sending a frame does not touch the queue. -/
theorem sendKey_queued (v : Byte) (s : State) : (sendKey v s).queued = s.queued := by rw [sendKey_eq]; rfl
theorem sendKey_unread (v : Byte) (s : State) : (sendKey v s).unread = s.unread := by rw [sendKey_eq]; rfl
theorem sendKey_toSend (v : Byte) (s : State) : (sendKey v s).toSend = s.toSend := by rw [sendKey_eq]; rfl

/-- More turns than there are unread characters change nothing. -/
theorem drainLoop_enough {n : Nat} {s : State} (h : s.unread < n) : drainLoop n s = drainLoop (n + 1) s := by
  induction n generalizing s with
  | zero => omega
  | succ n ih =>
    rw [drainLoop, drainLoop]
    split
    · rfl
    case isFalse hne =>
      refine ih ?_
      have := pop_unread (head_ne_tail_of_popChar hne)
      rw [sendKey_unread]
      omega

/-- The drain is its own loop: a `POP` of 0 ends it, any other character is sent first. -/
theorem drain_eq (s : State) :
    drain s = if popChar s = 0#8 then pop s else drain (sendKey (popChar s) (pop s)) := by
  rw [drain, Config.ringSlots, drainLoop]
  split
  · rfl
  case isFalse h =>
    have hu := pop_unread (head_ne_tail_of_popChar h)
    have := s.unread_lt
    exact drainLoop_enough (by rw [sendKey_unread]; omega)

/-- Induction along the drain loop: it ends at a `POP` of 0. -/
theorem drain_induction {P : State → Prop} (stop : ∀ s, popChar s = 0#8 → P s)
    (send : ∀ s, popChar s ≠ 0#8 → P (sendKey (popChar s) (pop s)) → P s) (s : State) : P s := by
  generalize hn : s.unread = n
  induction n using Nat.strong_induction_on generalizing s with
  | _ n ih =>
    by_cases h : popChar s = 0#8
    · exact stop s h
    · have hu := pop_unread (head_ne_tail_of_popChar h)
      exact send s h (ih _ (by rw [sendKey_unread]; omega) _ rfl)

/-- The frames of a drain. -/
theorem drain_trace (s : State) : (drain s).trace = s.trace ++ s.toSend.flatMap frameEvents := by
  induction s using drain_induction with
  | stop s h => rw [drain_eq, if_pos h, toSend_of_stop h, pop_trace]; simp
  | send s h ih =>
    rw [drain_eq, if_neg h, ih, toSend_of_send h, sendKey_toSend]
    simp [sendKey_eq]

@[simp] theorem drain_tail (s : State) : (drain s).tail = s.tail := by
  induction s using drain_induction with
  | stop s h => rw [drain_eq, if_pos h, pop_tail]
  | send s h ih => rw [drain_eq, if_neg h, ih]; simp [sendKey_eq]

@[simp] theorem drain_ticks (s : State) : (drain s).ticks = s.ticks := by
  induction s using drain_induction with
  | stop s h => rw [drain_eq, if_pos h, pop_ticks]
  | send s h ih => rw [drain_eq, if_neg h, ih]; simp [sendKey_eq]

/-- A drain leaves nothing queued where nothing queued is 0. -/
theorem drain_head_of_nonzero {s : State} (h : ∀ ch ∈ s.queued, ch ≠ 0#8) : (drain s).head = s.tail := by
  induction s using drain_induction with
  | stop s hz =>
    by_cases he : s.head = s.tail
    · rw [drain_eq, if_pos hz, pop_of_empty he, he]
    · exact absurd hz (h _ (by rw [queued_of_ne he]; simp))
  | send s hne ih =>
    have hq := queued_of_ne (head_ne_tail_of_popChar hne)
    rw [drain_eq, if_neg hne, ih fun ch hc => h ch ?_]
    · simp [sendKey_eq]
    · rw [sendKey_queued] at hc
      rw [hq]
      exact List.mem_cons_of_mem _ hc

theorem drain_wf {s : State} (h : s.buf.wf) : (drain s).buf.wf := by
  induction s using drain_induction with
  | stop s hz => rw [drain_eq, if_pos hz]; exact pop_wf h
  | send s hne ih => rw [drain_eq, if_neg hne]; exact ih (by rw [sendKey_eq]; exact pop_wf h)

theorem drain_tail_slot {s : State} (h : s.slot s.tail = 0#8) : (drain s).slot (drain s).tail = 0#8 := by
  induction s using drain_induction with
  | stop s hz => rw [drain_eq, if_pos hz]; exact pop_tail_slot h
  | send s hne ih =>
    rw [drain_eq, if_neg hne]
    refine ih ?_
    rw [sendKey_eq]
    exact pop_tail_slot h

/-- A drain that sends nothing touches the ring alone; one that sends leaves the lines and the transmit registers as the
last frame does. -/
theorem drain_frame (s : State) :
    (s.toSend = [] → drain s = { s with buf := (drain s).buf, head := (drain s).head }) ∧
    ∀ v, s.toSend.getLast? = some v →
      drain s =
        { s with
          buf := (drain s).buf, head := (drain s).head, data := levelOf (v.getLsbD 0), clock := .low, txSr := v
          bitIdx := 0#4, dlyCnt := 0#16, trace := (drain s).trace } := by
  induction s using drain_induction with
  | stop s h =>
    have hd : drain s = pop s := by rw [drain_eq, if_pos h]
    refine ⟨fun _ => ?_, fun v hv => ?_⟩
    · rw [hd]
      exact pop_eq s
    · rw [toSend_of_stop h] at hv
      cases hv
  | send s h ih =>
    have hd : drain s = drain (sendKey (popChar s) (pop s)) := by rw [drain_eq, if_neg h]
    have hs := toSend_of_send h
    refine ⟨fun he => (by rw [hs] at he; cases he), fun v hv => ?_⟩
    rw [sendKey_toSend] at ih
    rw [hs] at hv
    rw [hd]
    rcases hrest : (pop s).toSend.getLast? with _ | w
    · have hnil := List.getLast?_eq_none_iff.mp hrest
      rw [hnil] at hv
      obtain rfl : popChar s = v := by simpa using hv
      rw [ih.1 hnil, sendKey_eq, pop_eq]
    · have hv' : (pop s).toSend.getLast? = some v := by
        rw [List.getLast?_cons, hrest] at hv
        rw [hrest, ← hv]; rfl
      rw [ih.2 v hv', sendKey_eq, pop_eq]

end Sys2Proof.Machine
end

