-- ==== Sys2Proof/Laws/Scan.lean ====
section
/-! SUPPORT. A scan pass: the rows it drives and samples, apart from what it makes of the presses it sees; and each register
of the latter as a function of the list of presses in scan order. -/

namespace Sys2Proof.Machine

/-! The presses, one after another. -/

/-- What a pass makes of a list of presses. -/
def seeAll (ps : List Press) (s : State) : State :=
  ps.foldl (fun s k => seePress k.row k.col k.code s) s

@[simp] theorem seeAll_nil (s : State) : seeAll [] s = s := rfl

theorem seeAll_append (ps qs : List Press) (s : State) : seeAll (ps ++ qs) s = seeAll qs (seeAll ps s) :=
  List.foldl_append

theorem seeAll_concat (ps : List Press) (k : Press) (s : State) :
    seeAll (ps ++ [k]) s = seePress k.row k.col k.code (seeAll ps s) := by
  rw [seeAll_append]; rfl

/-- Latching a key in one record update. -/
theorem latchKey_eq (r c : LineIdx) (code : ScanCode) (s : State) :
    latchKey r c code s =
      { s with
        khRow := r, khCol := c, khCode := code, keyHit := true
        khChar := match s.params.resolvePoint with
          | .atLatch => s.charOf code
          | .endOfPass => s.khChar } := by
  unfold latchKey
  cases s.params.resolvePoint <;> rfl

/-- The flags of a modifier code in one record update. -/
theorem setModifier_eq (code : ScanCode) (s : State) :
    setModifier code s =
      { s with
        shift := s.shift || (code == 44#6 || code == 45#6), shiftLock := s.shiftLock || code == 45#6
        ctrl := s.ctrl || code == 46#6, func := s.func || code == 48#6 } := by
  unfold setModifier
  cases h1 : code == 44#6
  · cases h2 : code == 45#6
    · cases h3 : code == 46#6
      · cases h4 : code == 48#6 <;>
          simp_all [Config.codeShift, Config.codeShiftLock, Config.codeCtrl, Config.codeFunc]
      · simp_all [Config.codeShift, Config.codeShiftLock, Config.codeCtrl]
    · simp_all [Config.codeShift, Config.codeShiftLock]
  · simp_all [Config.codeShift]

theorem seePress_modifier {code : ScanCode} (h : isModifier code = true) (r c : LineIdx) (s : State) :
    seePress r c code s = setModifier code { s with scanRet := r.setWidth 4 + 1#4 } := by
  simp [seePress, h]

theorem seePress_key {code : ScanCode} (h : isModifier code = false) (r c : LineIdx) (s : State) :
    seePress r c code s = latchKey r c code { s with scanRet := r.setWidth 4 + 1#4 } := by
  simp [seePress, h]

/-- One press writes only the modifier flags, the key-hit record and flag, and the result. -/
theorem seePress_frame (r c : LineIdx) (code : ScanCode) (s : State) :
    seePress r c code s =
      { s with
        shift := (seePress r c code s).shift, shiftLock := (seePress r c code s).shiftLock
        ctrl := (seePress r c code s).ctrl, func := (seePress r c code s).func
        keyHit := (seePress r c code s).keyHit
        khRow := (seePress r c code s).khRow, khCol := (seePress r c code s).khCol
        khCode := (seePress r c code s).khCode, khChar := (seePress r c code s).khChar
        scanRet := (seePress r c code s).scanRet } := by
  cases h : isModifier code
  · rw [seePress_key h, latchKey_eq]
  · rw [seePress_modifier h, setModifier_eq]

theorem seeAll_frame (ps : List Press) (s : State) :
    seeAll ps s =
      { s with
        shift := (seeAll ps s).shift, shiftLock := (seeAll ps s).shiftLock
        ctrl := (seeAll ps s).ctrl, func := (seeAll ps s).func, keyHit := (seeAll ps s).keyHit
        khRow := (seeAll ps s).khRow, khCol := (seeAll ps s).khCol
        khCode := (seeAll ps s).khCode, khChar := (seeAll ps s).khChar
        scanRet := (seeAll ps s).scanRet } := by
  induction ps using List.reverseRecOn with
  | nil => rfl
  | append_singleton ps k ih => rw [seeAll_concat, seePress_frame, ih]

@[simp] theorem seePress_params (r c : LineIdx) (code : ScanCode) (s : State) :
    (seePress r c code s).params = s.params := by rw [seePress_frame]

@[simp] theorem seeAll_params (ps : List Press) (s : State) : (seeAll ps s).params = s.params := by
  rw [seeAll_frame]

/-! Each register after a list of presses. -/

@[simp] theorem seen_nil (code : ScanCode) : seen code [] = false := rfl

theorem seen_concat (code : ScanCode) (ps : List Press) (k : Press) :
    seen code (ps ++ [k]) = (seen code ps || k.code == code) := by simp [seen]

@[simp] theorem lastKey_nil : lastKey [] = none := rfl

theorem lastKey_concat (ps : List Press) (k : Press) :
    lastKey (ps ++ [k]) = if isModifier k.code then lastKey ps else some k := by
  cases h : isModifier k.code <;> simp [lastKey, h]

theorem upToLastKey_concat (ps : List Press) (k : Press) :
    upToLastKey (ps ++ [k]) = if isModifier k.code then upToLastKey ps else ps ++ [k] := by
  cases h : isModifier k.code <;> simp [upToLastKey, h]

/-- A key is not one of the four modifier codes. -/
theorem ne_modifier {code : ScanCode} (h : isModifier code = false) :
    (code == 44#6) = false ∧ (code == 45#6) = false ∧ (code == 46#6) = false ∧ (code == 48#6) = false := by
  simpa [isModifier, Config.codeShift, Config.codeShiftLock, Config.codeCtrl, Config.codeFunc, and_assoc] using h

/-- The flags and the result after one press, modifier or not (`42_scanner.md` R128, R129). -/
theorem seePress_flags (r c : LineIdx) (code : ScanCode) (s : State) :
    (seePress r c code s).shift = (s.shift || (code == 44#6 || code == 45#6)) ∧
    (seePress r c code s).shiftLock = (s.shiftLock || code == 45#6) ∧
    (seePress r c code s).ctrl = (s.ctrl || code == 46#6) ∧
    (seePress r c code s).func = (s.func || code == 48#6) ∧
    (seePress r c code s).scanRet = r.setWidth 4 + 1#4 := by
  cases h : isModifier code
  · obtain ⟨h1, h2, h3, h4⟩ := ne_modifier h
    rw [seePress_key h, latchKey_eq]
    simp [h1, h2, h3, h4]
  · rw [seePress_modifier h, setModifier_eq]
    simp

/-- A modifier code leaves the key-hit flag and record. -/
theorem seePress_of_modifier {code : ScanCode} (h : isModifier code = true) (r c : LineIdx) (s : State) :
    (seePress r c code s).keyHit = s.keyHit ∧ (seePress r c code s).khRow = s.khRow ∧
    (seePress r c code s).khCol = s.khCol ∧ (seePress r c code s).khCode = s.khCode ∧
    (seePress r c code s).khChar = s.khChar := by
  rw [seePress_modifier h, setModifier_eq]
  simp

/-- A non-modifier code is latched. -/
theorem seePress_of_key {code : ScanCode} (h : isModifier code = false) (r c : LineIdx) (s : State) :
    (seePress r c code s).keyHit = true ∧ (seePress r c code s).khRow = r ∧
    (seePress r c code s).khCol = c ∧ (seePress r c code s).khCode = code ∧
    (seePress r c code s).khChar =
      (match s.params.resolvePoint with
       | .atLatch => s.charOf code
       | .endOfPass => s.khChar) := by
  rw [seePress_key h, latchKey_eq]
  exact ⟨rfl, rfl, rfl, rfl, rfl⟩

theorem seeAll_shift (ps : List Press) (s : State) : (seeAll ps s).shift = (s.shift || shiftSeen ps) := by
  induction ps using List.reverseRecOn with
  | nil => simp [shiftSeen]
  | append_singleton ps k ih =>
    rw [seeAll_concat, (seePress_flags ..).1, ih]
    simp only [shiftSeen, seen_concat, Config.codeShift, Config.codeShiftLock]
    cases s.shift <;> cases seen 44#6 ps <;> cases seen 45#6 ps <;> cases k.code == 44#6 <;> rfl

theorem seeAll_shiftLock (ps : List Press) (s : State) :
    (seeAll ps s).shiftLock = (s.shiftLock || seen 45#6 ps) := by
  induction ps using List.reverseRecOn with
  | nil => simp
  | append_singleton ps k ih => rw [seeAll_concat, (seePress_flags ..).2.1, ih, seen_concat, Bool.or_assoc]

theorem seeAll_ctrl (ps : List Press) (s : State) : (seeAll ps s).ctrl = (s.ctrl || seen 46#6 ps) := by
  induction ps using List.reverseRecOn with
  | nil => simp
  | append_singleton ps k ih => rw [seeAll_concat, (seePress_flags ..).2.2.1, ih, seen_concat, Bool.or_assoc]

theorem seeAll_func (ps : List Press) (s : State) : (seeAll ps s).func = (s.func || seen 48#6 ps) := by
  induction ps using List.reverseRecOn with
  | nil => simp
  | append_singleton ps k ih => rw [seeAll_concat, (seePress_flags ..).2.2.2.1, ih, seen_concat, Bool.or_assoc]

theorem seeAll_scanRet (ps : List Press) (s : State) (h : s.scanRet = 0#4) :
    (seeAll ps s).scanRet = rowResult ps := by
  induction ps using List.reverseRecOn with
  | nil => simpa [rowResult] using h
  | append_singleton ps k ih => rw [seeAll_concat, (seePress_flags ..).2.2.2.2]; simp [rowResult]

theorem seeAll_keyHit (ps : List Press) (s : State) :
    (seeAll ps s).keyHit = (s.keyHit || (lastKey ps).isSome) := by
  induction ps using List.reverseRecOn with
  | nil => simp
  | append_singleton ps k ih =>
    rw [seeAll_concat, lastKey_concat]
    cases h : isModifier k.code
    · simp [(seePress_of_key h _ _ _).1]
    · simp [(seePress_of_modifier h _ _ _).1, ih]

/-- The record of the last key of a list of presses; its old value without one. -/
theorem seeAll_record (ps : List Press) (s : State) :
    (∀ k, lastKey ps = some k →
      (seeAll ps s).khRow = k.row ∧ (seeAll ps s).khCol = k.col ∧ (seeAll ps s).khCode = k.code) ∧
    (lastKey ps = none →
      (seeAll ps s).khRow = s.khRow ∧ (seeAll ps s).khCol = s.khCol ∧
      (seeAll ps s).khCode = s.khCode ∧ (seeAll ps s).khChar = s.khChar) := by
  induction ps using List.reverseRecOn with
  | nil => simp
  | append_singleton ps k ih =>
    rw [seeAll_concat, lastKey_concat]
    cases h : isModifier k.code
    · obtain ⟨-, h1, h2, h3, -⟩ := seePress_of_key h k.row k.col (seeAll ps s)
      rw [h1, h2, h3]
      simp only [Bool.false_eq_true, if_false, Option.some.injEq, reduceCtorEq, false_implies, and_true]
      rintro _ rfl
      exact ⟨rfl, rfl, rfl⟩
    · obtain ⟨-, h1, h2, h3, h4⟩ := seePress_of_modifier h k.row k.col (seeAll ps s)
      rw [h1, h2, h3, h4]
      simpa using ih

/-- A key is no modifier, so it counts for no flag. -/
theorem seen_concat_of_key {k : Press} (h : isModifier k.code = false) (ps : List Press) :
    seen 44#6 (ps ++ [k]) = seen 44#6 ps ∧ seen 45#6 (ps ++ [k]) = seen 45#6 ps ∧
    seen 46#6 (ps ++ [k]) = seen 46#6 ps ∧ seen 48#6 (ps ++ [k]) = seen 48#6 ps := by
  obtain ⟨h1, h2, h3, h4⟩ := ne_modifier h
  simp [seen_concat, h1, h2, h3, h4]

/-- Under `at_latch` the character is fixed by the presses up to the last key (`42_scanner.md` R125). -/
theorem seeAll_char_atLatch {ps : List Press} {s : State} {k : Press} (hp : s.params.resolvePoint = .atLatch)
    (h1 : s.shift = false) (h2 : s.ctrl = false) (h3 : s.func = false) (hk : lastKey ps = some k) :
    (seeAll ps s).khChar = charFor s.params s.shiftLock (upToLastKey ps) k.code := by
  induction ps using List.reverseRecOn with
  | nil => cases hk
  | append_singleton ps j ih =>
    rw [seeAll_concat, upToLastKey_concat]
    rw [lastKey_concat] at hk
    cases h : isModifier j.code
    · rw [h] at hk
      obtain rfl : j = k := by simpa using hk
      rw [(seePress_of_key h _ _ _).2.2.2.2]
      obtain ⟨e1, e2, e3, e4⟩ := seen_concat_of_key h ps
      simp only [seeAll_params, hp, State.charOf, State.shiftOn, seeAll_shift, seeAll_shiftLock, seeAll_ctrl,
        seeAll_func, h1, h2, h3, Bool.false_or, Bool.false_eq_true, if_false, charFor, shiftSeen,
        Config.codeShift, Config.codeShiftLock, Config.codeCtrl, Config.codeFunc, e1, e2, e3, e4]
      congr 1
      cases seen 44#6 ps <;> cases seen 45#6 ps <;> cases s.shiftLock <;> rfl
    · rw [h] at hk
      rw [(seePress_of_modifier h _ _ _).2.2.2.2, if_pos rfl]
      exact ih hk

/-! The rows. -/

/-- The port writes and the bookkeeping of a pass, apart from the presses. -/
def withPorts (r : LineIdx) (p : Byte) (cols : List Byte) (ctr : Nat) (evs : List Event) (s : State) : State :=
  { s with rowIdx := r, rowN := p, cols := cols, freeCtr := ctr, trace := evs }

theorem seePress_withPorts (r : LineIdx) (p : Byte) (cols : List Byte) (ctr : Nat) (evs : List Event)
    (a b : LineIdx) (code : ScanCode) (s : State) :
    seePress a b code (withPorts r p cols ctr evs s) = withPorts r p cols ctr evs (seePress a b code s) := by
  cases h : isModifier code
  · rw [seePress_key h, seePress_key h, latchKey_eq, latchKey_eq]
    rfl
  · rw [seePress_modifier h, seePress_modifier h, setModifier_eq, setModifier_eq]
    rfl

theorem seeAll_withPorts (r : LineIdx) (p : Byte) (cols : List Byte) (ctr : Nat) (evs : List Event)
    (ps : List Press) (s : State) :
    seeAll ps (withPorts r p cols ctr evs s) = withPorts r p cols ctr evs (seeAll ps s) := by
  induction ps using List.reverseRecOn with
  | nil => rfl
  | append_singleton ps k ih => rw [seeAll_concat, seeAll_concat, ih, seePress_withPorts]

/-- The columns of one sample are the presses it shows, in column order. -/
theorem scanColumns_eq (r : LineIdx) (v : Byte) (s : State) :
    scanColumns r v s = seeAll (pressesInRow s.params r v) s := by
  have gen : ∀ (cs : List LineIdx) (s : State),
      cs.foldl (scanColumn r v) s =
        seeAll (cs.filterMap fun c =>
          if columnActive v c && keymapAt s.params r c != 0#6 then some ⟨r, c, keymapAt s.params r c⟩ else none) s := by
    intro cs
    induction cs with
    | nil => intro s; rfl
    | cons c cs ih =>
      intro s
      rw [List.foldl_cons, List.filterMap_cons]
      cases h : columnActive v c && keymapAt s.params r c != 0#6
      · have : scanColumn r v s c = s := by simp [scanColumn, h]
        simp [this, ih]
      · have : scanColumn r v s c = seePress r c (keymapAt s.params r c) s := by simp [scanColumn, h]
        rw [this, ih, seePress_params]
        rfl
  exact gen _ _

/-- One row: the ports, then the presses. -/
theorem scanRow_eq (s : State) (r : LineIdx) :
    scanRow s r =
      withPorts r (rowPattern r) s.cols.tail (s.freeCtr + 1)
        (s.trace ++ [.row (rowPattern r), .col s.nextColumn])
        (seeAll (pressesInRow s.params r s.nextColumn) s) := by
  rw [← seeAll_withPorts, scanRow, scanColumns_eq]
  simp [withPorts, State.takeColumn, State.driveRow, State.nextColumn]

theorem samples_succ (s : State) (n : Nat) (r : LineIdx) (p : Byte) (evs : List Event) (u : State) :
    s.samples (n + 1) =
      s.nextColumn :: (withPorts r p s.cols.tail (s.freeCtr + 1) evs u).samples n := by
  simp only [State.samples, List.range_succ_eq_map, List.map_cons, List.map_map, withPorts, State.nextColumn,
    List.cons.injEq]
  refine ⟨by cases s.cols <;> simp, List.map_congr_left fun k _ => ?_⟩
  cases s.cols with
  | nil => simp [Nat.add_comm, Nat.add_left_comm]
  | cons c cs => simp [Nat.add_comm, Nat.add_left_comm]

/-- Any number of rows: each driven and sampled, and the presses of all of them in scan order. -/
theorem scanRows_eq (rows : List LineIdx) (s : State) :
    rows.foldl scanRow s =
      withPorts (rows.getLastD s.rowIdx) ((rows.map rowPattern).getLastD s.rowN) (s.cols.drop rows.length)
        (s.freeCtr + rows.length)
        (s.trace ++ (rows.zip (s.samples rows.length)).flatMap fun rv => [.row (rowPattern rv.1), .col rv.2])
        (seeAll ((rows.zip (s.samples rows.length)).flatMap fun rv => pressesInRow s.params rv.1 rv.2) s) := by
  induction rows generalizing s with
  | nil => simp [withPorts]
  | cons r rows ih =>
    have hs := samples_succ s rows.length r (rowPattern r)
      (s.trace ++ [.row (rowPattern r), .col s.nextColumn]) (seeAll (pressesInRow s.params r s.nextColumn) s)
    rw [List.foldl_cons, scanRow_eq, ih, List.length_cons, hs]
    simp only [List.zip_cons_cons, List.flatMap_cons, seeAll_append, seeAll_withPorts, List.map_cons,
      List.getLastD_cons]
    simp [withPorts, Nat.add_assoc, Nat.add_comm 1]

/-- A pass in state Idle before its end: eight rows driven and sampled, and the presses of the pass. -/
theorem passRows_eq (s : State) :
    rowOrder.foldl scanRow s =
      withPorts 7#3 0x7F#8 (s.cols.drop 8) (s.freeCtr + 8) (s.trace ++ passEvents (s.samples 8))
        (seeAll (presses s.params (s.samples 8)) s) :=
  scanRows_eq rowOrder s

/-- The state in which the presses of a pass are seen. -/
def passStart (s : State) : State := { clearModifiers s with scanRet := 0#4 }

/-- The end of a pass in one record update. -/
theorem endPass_eq (s : State) :
    endPass s =
      { s with
        khChar := if s.params.resolvePoint = .endOfPass ∧ s.keyHit = true then s.charOf s.khCode else s.khChar
        colIdx := Config.freeColIdx s.freeCtr, freeCtr := s.freeCtr + 1 } := by
  unfold endPass
  split <;> rfl

/-- A whole pass in state Idle. -/
theorem scanPass_eq (s : State) :
    scanPass s =
      let seenAll := seeAll (presses s.params (s.samples 8)) (passStart s)
      { withPorts 7#3 0x7F#8 (s.cols.drop 8) (s.freeCtr + 8 + 1) (s.trace ++ passEvents (s.samples 8)) seenAll with
        khChar := if seenAll.params.resolvePoint = .endOfPass ∧ seenAll.keyHit = true then
          seenAll.charOf seenAll.khCode else seenAll.khChar
        colIdx := Config.freeColIdx (s.freeCtr + 8) } := by
  have h : scanPass s = endPass (rowOrder.foldl scanRow (passStart s)) := rfl
  rw [h, passRows_eq, endPass_eq]
  rfl

/-- The holds of a pass: none. -/
@[simp] theorem holdTime_passEvents (samples : List Byte) : holdTime (passEvents samples) = 0 := by
  unfold passEvents
  induction rowOrder.zip samples with
  | nil => rfl
  | cons rv rest ih => simpa using ih

/-- Everything a pass writes, register by register (`42_scanner.md` R123). -/
theorem scanPass_frame (s : State) :
    scanPass s =
      { s with
        shift := (scanPass s).shift, shiftLock := (scanPass s).shiftLock, ctrl := (scanPass s).ctrl
        func := (scanPass s).func, keyHit := (scanPass s).keyHit
        khRow := (scanPass s).khRow, khCol := (scanPass s).khCol, khCode := (scanPass s).khCode
        khChar := (scanPass s).khChar, rowN := 0x7F#8, scanRet := (scanPass s).scanRet, rowIdx := 7#3
        colIdx := (scanPass s).colIdx, trace := s.trace ++ passEvents (s.samples 8)
        cols := s.cols.drop 8, freeCtr := s.freeCtr + 9 } := by
  rw [scanPass_eq]
  simp only [withPorts]
  rw [seeAll_frame]
  rfl

/-- The flags, the result and the record after a pass, from the presses it saw. -/
theorem scanPass_outcome {s : State} {ps : List Press} (h : s.keyHit = false)
    (hps : ps = presses s.params (s.samples 8)) :
    (scanPass s).shift = shiftSeen ps ∧ (scanPass s).ctrl = seen 46#6 ps ∧ (scanPass s).func = seen 48#6 ps ∧
    (scanPass s).shiftLock = (s.shiftLock || seen 45#6 ps) ∧ (scanPass s).scanRet = rowResult ps ∧
    (scanPass s).keyHit = (lastKey ps).isSome := by
  subst hps
  rw [scanPass_eq]
  simp only [withPorts]
  refine ⟨?_, ?_, ?_, ?_, ?_, ?_⟩
  · rw [seeAll_shift]; rfl
  · rw [seeAll_ctrl]; rfl
  · rw [seeAll_func]; rfl
  · rw [seeAll_shiftLock]; rfl
  · rw [seeAll_scanRet _ _ rfl]
  · rw [seeAll_keyHit]
    simp [passStart, clearModifiers, h]

/-- The record of a pass that latched a key. -/
theorem scanPass_record {s : State} {k : Press} (hk : lastKey (presses s.params (s.samples 8)) = some k) :
    (scanPass s).khRow = k.row ∧ (scanPass s).khCol = k.col ∧ (scanPass s).khCode = k.code := by
  rw [scanPass_eq]
  exact (seeAll_record _ _).1 k hk

/-- The record of a pass that latched nothing. -/
theorem scanPass_no_record {s : State} (h : s.keyHit = false)
    (hk : lastKey (presses s.params (s.samples 8)) = none) :
    (scanPass s).khRow = s.khRow ∧ (scanPass s).khCol = s.khCol ∧ (scanPass s).khCode = s.khCode ∧
    (scanPass s).khChar = s.khChar := by
  obtain ⟨h1, h2, h3, h4⟩ := (seeAll_record _ (passStart s)).2 hk
  rw [scanPass_eq]
  refine ⟨h1, h2, h3, ?_⟩
  have hkey : (seeAll (presses s.params (s.samples 8)) (passStart s)).keyHit = false := by
    rw [seeAll_keyHit, hk]
    simp [passStart, clearModifiers, h]
  simp only [hkey, Bool.false_eq_true, and_false, if_false]
  exact h4

/-- The character of the latched key, under either `RESOLVE_POINT` (`42_scanner.md` R127). -/
theorem scanPass_char {s : State} {k : Press} (hk : lastKey (presses s.params (s.samples 8)) = some k) :
    (scanPass s).khChar =
      charFor s.params s.shiftLock (resolvingPresses s.params (presses s.params (s.samples 8))) k.code := by
  rw [scanPass_eq]
  simp only [seeAll_params, show (passStart s).params = s.params from rfl]
  cases hp : s.params.resolvePoint with
  | atLatch =>
    simp only [reduceCtorEq, false_and, if_false, resolvingPresses, hp]
    rw [seeAll_char_atLatch (s := passStart s) (k := k) hp rfl rfl rfl hk]
    rfl
  | endOfPass =>
    have hkey : (seeAll (presses s.params (s.samples 8)) (passStart s)).keyHit = true := by
      rw [seeAll_keyHit, hk]
      simp
    rw [if_pos ⟨rfl, hkey⟩, ((seeAll_record _ (passStart s)).1 k hk).2.2]
    simp only [State.charOf, State.shiftOn, seeAll_params, seeAll_shift, seeAll_shiftLock, seeAll_ctrl, seeAll_func,
      resolvingPresses, hp, charFor, shiftSeen, Config.codeShift, Config.codeShiftLock, Config.codeCtrl,
      Config.codeFunc, passStart, clearModifiers, Bool.false_or]
    congr 1
    cases seen 44#6 (presses s.params (s.samples 8)) <;> cases seen 45#6 (presses s.params (s.samples 8)) <;>
      cases s.shiftLock <;> rfl

/-- Every press of a pass is of a defined key (`41_keytable.md` R101). -/
theorem presses_defined {p : Params} {samples : List Byte} {k : Press} (h : k ∈ presses p samples) :
    k.code ≠ 0#6 ∧ k.code.toNat ≤ 48 := by
  obtain ⟨rv, -, h⟩ := List.mem_flatMap.mp h
  obtain ⟨c, -, h⟩ := List.mem_filterMap.mp h
  split at h
  case isFalse => cases h
  case isTrue hc =>
    obtain rfl := Option.some.inj h
    refine ⟨by simpa using (Bool.and_eq_true_iff.mp hc).2, ?_⟩
    have := (p.keymap[(keymapIndex rv.1 c).toNat]'(keymapIndex rv.1 c).isLt).isLt
    simp only [keymapAt, BitVec.toNat_ofNat]
    omega

/-- The last key is one of the presses, and no modifier. -/
theorem lastKey_spec {ps : List Press} {k : Press} (h : lastKey ps = some k) :
    k ∈ ps ∧ isModifier k.code = false := by
  simpa using List.mem_filter.mp (List.mem_of_getLast? h)

end Sys2Proof.Machine
end

