-- ==== Sys2Proof/Laws/Sequencer.lean ====
section
/-! SUPPORT. `SCAN`, `CONSUME`, `DISPATCH` and `BOOT` as the sequencer uses them: what each leaves alone, and what each
appends to the trace. -/

namespace Sys2Proof.Machine

theorem scan_of_pending {s : State} (h : s.keyHit = true) : scan s = { s with scanRet := 0#4 } := by
  simp [scan, h]

theorem scan_of_idle {s : State} (h : s.keyHit = false) : scan s = scanPass s := by
  simp [scan, h]

/-- What `SCAN` leaves: everything but the registers and inputs `42_scanner.md` R123 lists. -/
theorem scan_frame (s : State) :
    scan s =
      { s with
        shift := (scan s).shift, shiftLock := (scan s).shiftLock, ctrl := (scan s).ctrl, func := (scan s).func
        keyHit := (scan s).keyHit, khRow := (scan s).khRow, khCol := (scan s).khCol, khCode := (scan s).khCode
        khChar := (scan s).khChar, rowN := (scan s).rowN, scanRet := (scan s).scanRet
        rowIdx := (scan s).rowIdx, colIdx := (scan s).colIdx, trace := (scan s).trace, cols := (scan s).cols
        freeCtr := (scan s).freeCtr } := by
  cases h : s.keyHit
  · rw [scan_of_idle h, scanPass_frame]
  · rw [scan_of_pending h]

/-- `SCAN` appends its row and column events in state Idle and nothing in state Pending, and holds nothing. -/
theorem scan_trace (s : State) :
    (scan s).trace = s.trace ++ (if s.keyHit then [] else passEvents (s.samples 8)) := by
  cases h : s.keyHit
  · rw [scan_of_idle h, scanPass_frame]; rfl
  · rw [scan_of_pending h]; simp

theorem consume_of_idle {s : State} (h : s.keyHit = false) : consume s = s := by simp [consume, h]

theorem consume_of_no_char {s : State} (h : s.keyHit = true) (hc : s.khChar = 0#8) :
    consume s = { s with keyHit := false } := by simp [consume, h, hc]

theorem consume_of_char {s : State} (h : s.keyHit = true) (hc : s.khChar ≠ 0#8) :
    consume s =
      { push s.khChar s with keyHit := false, dlyCnt := 0#16, trace := s.trace ++ [.hold 115] } := by
  simp [consume, h, hc, delay_keyrdDel, push_eq]

/-- Everything `CONSUME` can do (`42_scanner.md` R130). -/
theorem consume_cases (s : State) :
    (s.keyHit = false ∧ consume s = s) ∨
    (s.keyHit = true ∧ s.khChar = 0#8 ∧ consume s = { s with keyHit := false }) ∨
    (s.keyHit = true ∧ s.khChar ≠ 0#8 ∧
      consume s =
        { push s.khChar s with keyHit := false, dlyCnt := 0#16, trace := s.trace ++ [.hold 115] }) := by
  cases h : s.keyHit
  · exact .inl ⟨rfl, consume_of_idle h⟩
  · by_cases hc : s.khChar = 0#8
    · exact .inr (.inl ⟨rfl, hc, consume_of_no_char h hc⟩)
    · exact .inr (.inr ⟨rfl, hc, consume_of_char h hc⟩)

/-- `CONSUME` writes the ring, the key-hit flag, the delay counter and the trace. -/
theorem consume_frame (s : State) :
    consume s =
      { s with
        keyHit := false, buf := (consume s).buf, tail := (consume s).tail, dlyCnt := (consume s).dlyCnt
        trace := (consume s).trace } := by
  rcases consume_cases s with ⟨h, he⟩ | ⟨-, -, he⟩ | ⟨-, -, he⟩ <;> rw [he]
  · rw [← h]
  · rw [push_eq]

/-- The events of `CONSUME`: the post-press delay where a character is pushed. -/
theorem consume_trace (s : State) :
    (consume s).trace = s.trace ++ (if s.keyHit && s.khChar != 0#8 then [.hold 115] else []) := by
  rcases consume_cases s with ⟨h, he⟩ | ⟨h, hc, he⟩ | ⟨h, hc, he⟩ <;> rw [he] <;> simp [h]
  · simp [hc]
  · simp [hc]

/-- `BOOT` in one record update. -/
theorem boot_eq (s : State) :
    boot s =
      { s with
        seq := .scan, data := .low, clock := .low, txSr := 0#8, bitIdx := 0#4, dlyCnt := 0#16
        trace := s.trace ++ ([.hold 1000] ++ frameEvents 0x00#8) } := by
  simp [boot, delay_bootDel, sendKey_eq, Config.bootByte, State.goto, levelOf]

/-- What `DRAIN` leaves: everything but the ring, the serial lines, the transmit registers and the delay counter. -/
theorem drain_frame_all (s : State) :
    drain s =
      { s with
        buf := (drain s).buf, head := (drain s).head, data := (drain s).data, clock := (drain s).clock
        txSr := (drain s).txSr, bitIdx := (drain s).bitIdx, dlyCnt := (drain s).dlyCnt
        trace := (drain s).trace } := by
  rcases h : s.toSend.getLast? with _ | v
  · rw [(drain_frame s).1 (List.getLast?_eq_none_iff.mp h)]
  · rw [(drain_frame s).2 v h]

/-! The outer fields: those no part of the block reads or writes on its own account (`seq` is the sequencer's, `result` the
issuer's, the rest the environment's). Every part commutes with a change of them. -/

/-- The outer fields of a state. -/
structure Outer where
  seq : Seq
  result : CmdResult
  ticks : TickSource
  rst : Option Nat
  cmds : List CmdWord
  dataIn : BitVec 1
  clkIn : BitVec 1

def State.outer (s : State) : Outer := ⟨s.seq, s.result, s.ticks, s.rst, s.cmds, s.dataIn, s.clkIn⟩

def State.withOuter (s : State) (o : Outer) : State :=
  { s with
    seq := o.seq, result := o.result, ticks := o.ticks, rst := o.rst, cmds := o.cmds, dataIn := o.dataIn
    clkIn := o.clkIn }

theorem State.withOuter_withOuter (s : State) (o o' : Outer) : (s.withOuter o).withOuter o' = s.withOuter o' := rfl
theorem State.withOuter_self (s : State) : s.withOuter s.outer = s := rfl
theorem State.outer_withOuter (s : State) (o : Outer) : (s.withOuter o).outer = o := rfl

theorem scan_outer (s : State) : (scan s).outer = s.outer := by rw [scan_frame]; rfl
theorem consume_outer (s : State) : (consume s).outer = s.outer := by rw [consume_frame]; rfl
theorem pop_outer (s : State) : (pop s).outer = s.outer := by rw [pop_eq]; rfl
theorem sendKey_outer (v : Byte) (s : State) : (sendKey v s).outer = s.outer := by rw [sendKey_eq]; rfl
theorem drain_outer (s : State) : (drain s).outer = s.outer := by rw [drain_frame_all]; rfl

theorem delay_withOuter (ms : BitVec 16) (s : State) (o : Outer) :
    delay ms (s.withOuter o) = (delay ms s).withOuter o := by
  unfold delay
  split <;> rfl

theorem seePress_withOuter (r c : LineIdx) (code : ScanCode) (s : State) (o : Outer) :
    seePress r c code (s.withOuter o) = (seePress r c code s).withOuter o := by
  cases hk : isModifier code
  · rw [seePress_key hk, seePress_key hk, latchKey_eq, latchKey_eq]; rfl
  · rw [seePress_modifier hk, seePress_modifier hk, setModifier_eq, setModifier_eq]; rfl

theorem seeAll_withOuter (ps : List Press) (s : State) (o : Outer) :
    seeAll ps (s.withOuter o) = (seeAll ps s).withOuter o := by
  induction ps using List.reverseRecOn with
  | nil => rfl
  | append_singleton ps k ih => rw [seeAll_concat, seeAll_concat, ih, seePress_withOuter]

theorem scan_withOuter (s : State) (o : Outer) : scan (s.withOuter o) = (scan s).withOuter o := by
  cases h : s.keyHit
  · rw [scan_of_idle h, scan_of_idle (show (s.withOuter o).keyHit = false from h), scanPass_eq, scanPass_eq,
      show passStart (s.withOuter o) = (passStart s).withOuter o from rfl, seeAll_withOuter]
    rfl
  · rw [scan_of_pending h, scan_of_pending (show (s.withOuter o).keyHit = true from h)]
    rfl

theorem consume_withOuter (s : State) (o : Outer) : consume (s.withOuter o) = (consume s).withOuter o := by
  rcases consume_cases s with ⟨h, he⟩ | ⟨h, hc, he⟩ | ⟨h, hc, he⟩
  · rw [he, consume_of_idle (s := s.withOuter o) h]
  · rw [he, consume_of_no_char (s := s.withOuter o) h hc]; rfl
  · rw [he, consume_of_char (s := s.withOuter o) h hc]; rfl

theorem pop_withOuter (s : State) (o : Outer) : pop (s.withOuter o) = (pop s).withOuter o := by
  by_cases h : s.head = s.tail
  · rw [pop_of_empty h, pop_of_empty (s := s.withOuter o) h]
  · rw [pop_of_ne h, pop_of_ne (s := s.withOuter o) h]; rfl

theorem popChar_withOuter (s : State) (o : Outer) : popChar (s.withOuter o) = popChar s := rfl

theorem sendKey_withOuter (v : Byte) (s : State) (o : Outer) :
    sendKey v (s.withOuter o) = (sendKey v s).withOuter o := by
  rw [sendKey_eq, sendKey_eq]; rfl

theorem drain_withOuter (s : State) (o : Outer) : drain (s.withOuter o) = (drain s).withOuter o := by
  induction s using drain_induction with
  | stop s h => rw [drain_eq, drain_eq s, popChar_withOuter, if_pos h, if_pos h, pop_withOuter]
  | send s h ih =>
    rw [drain_eq, drain_eq s, popChar_withOuter, if_neg h, if_neg h, pop_withOuter, sendKey_withOuter, ih]

theorem State.goto_eq (s : State) (q : Seq) : s.goto q = s.withOuter { s.outer with seq := q } := rfl
theorem State.answer_eq (s : State) (r : CmdResult) : s.answer r = s.withOuter { s.outer with result := r } := rfl

/-- `DISPATCH` is its three operations and `seq` at `S_SCAN` (`45_dispatch.md` R183). -/
theorem dispatch_eq (s : State) : dispatch s = (drain (consume (scan s))).goto .scan := by
  simp only [dispatch, State.goto_eq, scan_withOuter, consume_withOuter, drain_withOuter, scan_outer, consume_outer,
    drain_outer, State.withOuter_withOuter, State.outer_withOuter]

/-- The events of a turn: the pass, the post-press delay of a key with a character, the frames of the drain. -/
theorem dispatch_trace (s : State) :
    (dispatch s).trace =
      s.trace ++ ((if s.keyHit then [] else passEvents (s.samples 8)) ++
        ((if (scan s).keyHit && (scan s).khChar != 0#8 then [.hold 115] else []) ++
          (consume (scan s)).toSend.flatMap frameEvents)) := by
  rw [dispatch_eq, State.goto_trace, drain_trace, consume_trace, scan_trace]
  simp only [List.append_assoc]

/-- What a turn leaves alone. -/
theorem dispatch_frame (s : State) :
    (dispatch s).params = s.params ∧ (dispatch s).result = s.result ∧ (dispatch s).ticks = s.ticks ∧
    (dispatch s).rst = s.rst ∧ (dispatch s).cmds = s.cmds ∧ (dispatch s).dataIn = s.dataIn ∧
    (dispatch s).clkIn = s.clkIn ∧ (dispatch s).keyHit = false ∧ (dispatch s).seq = .scan := by
  rw [dispatch_eq, drain_frame_all, consume_frame, scan_frame]
  exact ⟨rfl, rfl, rfl, rfl, rfl, rfl, rfl, rfl, rfl⟩

end Sys2Proof.Machine
end

