-- ==== Sys2Proof/Laws/Exec.lean ====
section
/-! SUPPORT. What an operation and a step can answer, said once: `exec` as one awaited effect, the cases of `step`, how
the environment's fields commute with an effect, and the parts of a reset in mid-operation. -/

namespace Sys2Proof.Machine

/-- What each operation leaves, the ticks it awaits apart. -/
def effect : Instr → State → State
  | .delay ms => delay ms
  | .keycode r c => fun s => s.answer (.code (keymapAt s.params r c))
  | .resolve code sh ct fn => fun s => s.answer (.char (resolveChar s.params code sh ct fn))
  | .scan => fun s => (scan s).answer (.row (scan s).scanRet)
  | .consume => consume
  | .push ch => push ch
  | .pop => fun s => (pop s).answer (.char (popChar s))
  | .lineIdle => lineIdle
  | .sendStart => sendStart
  | .sendBit b => sendBit b
  | .sendByte v => sendByte v
  | .sendKey v => sendKey v
  | .drain => drain
  | .dispatch => dispatch
  | .boot => boot

theorem delay_trace (ms : BitVec 16) (s : State) :
    (delay ms s).trace = s.trace ++ (if ms = 0#16 then [] else [.hold ms.toNat]) := by
  unfold delay
  split <;> simp

/-- Every operation appends its events to the trace. -/
theorem effect_trace (i : Instr) (s : State) : ∃ evs, (effect i s).trace = s.trace ++ evs := by
  cases i with
  | delay ms => exact ⟨_, delay_trace ms s⟩
  | keycode r c => exact ⟨[], (List.append_nil _).symm⟩
  | resolve code sh ct fn => exact ⟨[], (List.append_nil _).symm⟩
  | scan => exact ⟨_, scan_trace s⟩
  | consume => exact ⟨_, consume_trace s⟩
  | push ch => exact ⟨[], (List.append_nil _).symm⟩
  | pop => exact ⟨[], by simp [effect]⟩
  | lineIdle => exact ⟨_, by rw [effect, lineIdle_eq]⟩
  | sendStart => exact ⟨_, by rw [effect, sendStart_eq]⟩
  | sendBit b => exact ⟨_, by rw [effect, sendBit_eq]⟩
  | sendByte v => exact ⟨_, by rw [effect, sendByte_eq]⟩
  | sendKey v => exact ⟨_, by rw [effect, sendKey_eq]⟩
  | drain => exact ⟨_, drain_trace s⟩
  | dispatch => exact ⟨_, dispatch_trace s⟩
  | boot => exact ⟨_, by rw [effect, boot_eq]⟩

/-- Every operation is its effect, awaited. -/
theorem exec_eq (i : Instr) (s : State) : exec i s = awaiting (effect i) s := by
  cases i with
  | keycode r c => exact (awaiting_of_no_hold (op := effect (.keycode r c)) (List.append_nil _).symm rfl rfl).symm
  | resolve code sh ct fn =>
    exact (awaiting_of_no_hold (op := effect (.resolve code sh ct fn)) (List.append_nil _).symm rfl rfl).symm
  | scan =>
    refine (awaiting_of_no_hold (op := effect .scan) (scan_trace s) ?_ ?_).symm
    · split <;> simp
    · show (scan s).ticks = _
      rw [scan_frame]
  | push ch => exact (awaiting_of_no_hold (op := effect (.push ch)) (List.append_nil _).symm rfl rfl).symm
  | pop =>
    exact (awaiting_of_no_hold (op := effect .pop) (evs := []) (by simp [effect]) rfl (by simp [effect])).symm
  | _ => rfl

/-- A next state of an operation is its effect with some of the ticks spent. -/
theorem exec_next {i : Instr} {s t : State} (h : exec i s = .next t) :
    t = { effect i s with ticks := s.ticks.spend (holdTime (newEvents s (effect i s))) } := by
  rw [exec_eq] at h
  exact awaiting_next h

/-- A tick source that keeps ticking ends every wait. -/
theorem awaiting_forever (op : State → State) {s : State} (h : s.ticks = .forever) :
    awaiting op s = .next { op s with ticks := .forever } := by
  simp [awaiting, h]

/-- The one way to stop. -/
theorem awaiting_fault {op : State → State} {s : State} {r : Fault} (h : awaiting op s = .fault r) :
    r = .tickStopped ∧ ∃ n, s.ticks = .left n := by
  refine ⟨by cases r; rfl, ?_⟩
  cases ht : s.ticks with
  | forever => rw [awaiting_forever op ht] at h; cases h
  | left n => exact ⟨n, rfl⟩

theorem awaiting_ne_refused (op : State → State) (s : State) (r : Refusal) : awaiting op s ≠ .refused r := by
  rcases awaiting_cases op s with ⟨-, he⟩ | ⟨-, he⟩ <;> rw [he] <;> simp

/-- An operation whose events are known, with ticks for its holds. -/
theorem awaiting_supplied {op : State → State} {s : State} {evs : List Event} {n : Nat}
    (h : (op s).trace = s.trace ++ evs) (hn : holdTime evs = n) (ht : s.ticks.supplies n = true) :
    awaiting op s = .next { op s with ticks := s.ticks.spend n } := by
  rw [awaiting_of_trace h, hn, if_pos ht]

/-- An operation whose events are known, without ticks for its holds. -/
theorem awaiting_starved {op : State → State} {s : State} {evs : List Event} {n m : Nat}
    (h : (op s).trace = s.trace ++ evs) (hn : holdTime evs = n) (ht : s.ticks = .left m) (hm : m < n) :
    awaiting op s = .fault .tickStopped := by
  rw [awaiting_of_trace h, hn, ht, if_neg (by simpa using hm)]

/-- Everything a step can answer a next state by: a command word's operation, the sequencer's, or reset. -/
theorem step_cases {s t : State} (h : step s = .next t) :
    (s.rst = none ∧ ∃ w rest i, s.cmds = w :: rest ∧ decode w = .ok i ∧ exec i { s with cmds := rest } = .next t) ∨
    (s.rst = none ∧ s.cmds = [] ∧ awaiting sequencerTurn s = .next t) ∨
    ∃ n, s.rst = some n ∧ t = resetDuring n s := by
  cases hr : s.rst with
  | some n => exact .inr (.inr ⟨n, rfl, by simpa [step, hr] using h.symm⟩)
  | none =>
    simp only [step, hr, turn] at h
    cases hc : s.cmds with
    | nil => exact .inr (.inl ⟨rfl, rfl, by simpa [hc] using h⟩)
    | cons w rest =>
      simp only [hc, runCommand] at h
      cases hd : decode w with
      | ok i => exact .inl ⟨rfl, w, rest, i, rfl, hd, by simpa [hd] using h⟩
      | error e => simp [hd] at h

theorem step_of_command {s : State} {w : CmdWord} {rest : List CmdWord} {i : Instr} (hr : s.rst = none)
    (hc : s.cmds = w :: rest) (hd : decode w = .ok i) : step s = exec i { s with cmds := rest } := by
  simp [step, hr, turn, hc, runCommand, hd]

theorem step_of_sequencer {s : State} (hr : s.rst = none) (hc : s.cmds = []) :
    step s = awaiting sequencerTurn s := by
  simp [step, hr, turn, hc]

theorem step_of_reset {s : State} {n : Nat} (hr : s.rst = some n) : step s = .next (resetDuring n s) := by
  simp [step, hr]

/-! The environment's fields are read by no part: every operation commutes with a change of them. -/

/-- The fields of the environment that no operation writes. -/
structure Env where
  ticks : TickSource
  rst : Option Nat
  cmds : List CmdWord
  dataIn : BitVec 1
  clkIn : BitVec 1

def State.withEnv (s : State) (e : Env) : State :=
  { s with ticks := e.ticks, rst := e.rst, cmds := e.cmds, dataIn := e.dataIn, clkIn := e.clkIn }

theorem State.withEnv_eq (s : State) (e : Env) :
    s.withEnv e = s.withOuter ⟨s.seq, s.result, e.ticks, e.rst, e.cmds, e.dataIn, e.clkIn⟩ := rfl

theorem scan_withEnv (s : State) (e : Env) : scan (s.withEnv e) = (scan s).withEnv e := by
  rw [State.withEnv_eq, scan_withOuter, State.withEnv_eq, scan_frame]

theorem consume_withEnv (s : State) (e : Env) : consume (s.withEnv e) = (consume s).withEnv e := by
  rw [State.withEnv_eq, consume_withOuter, State.withEnv_eq, consume_frame]

theorem pop_withEnv (s : State) (e : Env) : pop (s.withEnv e) = (pop s).withEnv e := by
  rw [State.withEnv_eq, pop_withOuter, State.withEnv_eq, pop_eq]

theorem sendKey_withEnv (v : Byte) (s : State) (e : Env) :
    sendKey v (s.withEnv e) = (sendKey v s).withEnv e := by
  rw [sendKey_eq, sendKey_eq]; rfl

theorem drain_withEnv (s : State) (e : Env) : drain (s.withEnv e) = (drain s).withEnv e := by
  rw [State.withEnv_eq, drain_withOuter, State.withEnv_eq, drain_frame_all]

theorem delay_withEnv (ms : BitVec 16) (s : State) (e : Env) :
    delay ms (s.withEnv e) = (delay ms s).withEnv e := by
  unfold delay
  split <;> rfl

/-- An effect does not read the environment's fields, and leaves them alone. -/
theorem effect_withEnv (i : Instr) (s : State) (e : Env) : effect i (s.withEnv e) = (effect i s).withEnv e := by
  cases i with
  | delay ms => exact delay_withEnv ms s e
  | keycode r c => rfl
  | resolve code sh ct fn => rfl
  | scan => simp only [effect, scan_withEnv]; rfl
  | consume => exact consume_withEnv s e
  | push ch => rfl
  | pop => simp only [effect, pop_withEnv]; rfl
  | lineIdle => rw [effect, lineIdle_eq, lineIdle_eq]; rfl
  | sendStart => rw [effect, sendStart_eq, sendStart_eq]; rfl
  | sendBit b => rw [effect, sendBit_eq, sendBit_eq]; rfl
  | sendByte v => rw [effect, sendByte_eq, sendByte_eq]; rfl
  | sendKey v => exact sendKey_withEnv v s e
  | drain => exact drain_withEnv s e
  | dispatch => rw [effect, dispatch_eq, dispatch_eq, scan_withEnv, consume_withEnv, drain_withEnv]; rfl
  | boot => rw [effect, boot_eq, boot_eq]; rfl

/-- The sequencer's turn is an effect of the same kind. -/
theorem sequencerTurn_withEnv (s : State) (e : Env) :
    sequencerTurn (s.withEnv e) = (sequencerTurn s).withEnv e := by
  cases h : s.seq <;> simp only [sequencerTurn, h, show (s.withEnv e).seq = s.seq from rfl]
  · rw [delay_withEnv]; rfl
  · rw [sendKey_withEnv]; rfl
  · rw [scan_withEnv]; rfl
  · rw [consume_withEnv]; rfl
  · rw [show popChar (s.withEnv e) = popChar s from rfl, pop_withEnv]
    split
    · rfl
    · rw [sendKey_withEnv]

theorem sequencerTurn_trace (s : State) : ∃ evs, (sequencerTurn s).trace = s.trace ++ evs := by
  cases h : s.seq <;> simp only [sequencerTurn, h]
  · exact ⟨_, delay_trace _ s⟩
  · exact ⟨_, by rw [State.goto_trace, sendKey_eq]⟩
  · exact ⟨_, scan_trace s⟩
  · exact ⟨_, consume_trace s⟩
  · split
    · exact ⟨[], by simp⟩
    · exact ⟨_, by rw [sendKey_eq, pop_trace]⟩

/-! The ring after a drain. -/

theorem toPop_of_stop {s : State} (h : popChar s = 0#8) : s.toPop = if s.head = s.tail then 0 else 1 := by
  rw [State.toPop, toSend_of_stop h, queued_length]
  split
  case isTrue he => simp [s.unread_eq_zero.mpr he]
  case isFalse he =>
    have : s.unread ≠ 0 := fun e => he (s.unread_eq_zero.mp e)
    simp only [List.length_nil]
    omega

theorem toPop_of_send {s : State} (h : popChar s ≠ 0#8) : s.toPop = (pop s).toPop + 1 := by
  rw [State.toPop, State.toPop, toSend_of_send h, queued_of_ne (head_ne_tail_of_popChar h)]
  simp

theorem sendKey_toPop (v : Byte) (s : State) : (sendKey v s).toPop = s.toPop := by
  rw [State.toPop, sendKey_toSend, sendKey_queued, State.toPop]

/-- A drain moves `head` past what it popped and zeroes those slots, and no other. -/
theorem drain_ring (s : State) :
    (drain s).head.val = (s.head.val + s.toPop) % 10 ∧
    ∀ a, (drain s).buf.read a =
      if ∃ n, n < s.toPop ∧ a = (s.head.val + n) % 10 then 0#8 else s.buf.read a := by
  induction s using drain_induction with
  | stop s h =>
    rw [drain_eq, if_pos h, toPop_of_stop h]
    have hlt := s.head.isLt
    simp only [Config.ringSlots] at hlt
    by_cases he : s.head = s.tail
    · rw [pop_of_empty he, if_pos he]
      exact ⟨by omega, by simp⟩
    · rw [if_neg he]
      refine ⟨by rw [pop_of_ne he]; exact nextSlot_val _, fun a => ?_⟩
      have hone : (∃ n, n < 1 ∧ a = (s.head.val + n) % 10) ↔ a = s.head.val := by
        constructor
        · rintro ⟨n, hn, rfl⟩; omega
        · intro e; exact ⟨0, by omega, by omega⟩
      rw [pop_read he]
      simp only [hone]
  | send s h ih =>
    have hne := head_ne_tail_of_popChar h
    have hlt := s.head.isLt
    simp only [Config.ringSlots] at hlt
    rw [drain_eq, if_neg h, toPop_of_send h]
    rw [sendKey_toPop, show (sendKey (popChar s) (pop s)).head = nextSlot s.head by rw [sendKey_eq, pop_of_ne hne],
      show (sendKey (popChar s) (pop s)).buf = (pop s).buf by rw [sendKey_eq], nextSlot_val] at ih
    refine ⟨by rw [ih.1]; omega, fun a => ?_⟩
    have hmore : (∃ n, n < (pop s).toPop + 1 ∧ a = (s.head.val + n) % 10) ↔
        a = s.head.val ∨ ∃ n, n < (pop s).toPop ∧ a = ((s.head.val + 1) % 10 + n) % 10 := by
      constructor
      · rintro ⟨n, hn, rfl⟩
        rcases n with _ | n
        · left; omega
        · right; exact ⟨n, by omega, by omega⟩
      · rintro (e | ⟨n, hn, e⟩)
        · exact ⟨0, by omega, by omega⟩
        · exact ⟨n + 1, by omega, by omega⟩
    rw [ih.2 a, pop_read hne]
    simp only [hmore]
    by_cases h1 : a = s.head.val <;> simp [h1]

/-! What a push does to the queue. -/

theorem push_queued {ch : Byte} {s : State} (h : s.unread < 9) : (push ch s).queued = s.queued ++ [ch] := by
  have hu := push_unread (ch := ch) h
  have hh := s.head.isLt
  have ht := s.tail.isLt
  have hx := State.unread_eq s
  have e1 : (nextSlot s.tail).val = (s.tail.val + 1) % 10 := nextSlot_val _
  rw [State.queued, hu, List.range_succ, List.map_append, State.queued]
  congr 1
  · refine List.map_congr_left fun n hn => ?_
    have hn := List.mem_range.mp hn
    rw [push_read, push_head]
    simp only [Config.ringSlots] at *
    rw [if_neg (by omega), if_neg (by omega)]
  · rw [List.map_singleton, push_read, push_head]
    simp only [Config.ringSlots] at *
    rw [if_neg (by omega), if_pos (by omega)]

/-- A push onto nine unread characters makes the queue empty. -/
theorem push_full {ch : Byte} {s : State} (h : s.unread = 9) : (push ch s).head = (push ch s).tail := by
  have hh := s.head.isLt
  have ht := s.tail.isLt
  rw [State.unread_eq] at h
  refine Fin.ext ?_
  rw [push_tail, push_head, nextSlot_val]
  simp only [Config.ringSlots] at *
  omega

/-! A reset in mid-operation: the events it lets happen. -/

theorem reached_forever (evs : List Event) : reached .forever evs = evs := by
  induction evs with
  | nil => rfl
  | cons e evs ih => simp [reached, ih]

theorem reached_take (ticks : TickSource) (evs : List Event) :
    ∃ j, j ≤ evs.length ∧ reached ticks evs = evs.take j := by
  induction evs generalizing ticks with
  | nil => exact ⟨0, by simp, by cases ticks <;> rfl⟩
  | cons e evs ih =>
    rw [reached]
    split
    · obtain ⟨j, hj, h⟩ := ih (ticks.spend (holdTime [e]))
      exact ⟨j + 1, by simpa using hj, by rw [h]; rfl⟩
    · exact ⟨0, by simp, rfl⟩

theorem reached_time (m : Nat) (evs : List Event) : holdTime (reached (.left m) evs) ≤ m := by
  induction evs generalizing m with
  | nil => simp [reached]
  | cons e evs ih =>
    rw [reached]
    split
    case isTrue h =>
      have := ih (m - holdTime [e])
      rw [← List.singleton_append, holdTime_append]
      simp only [TickSource.supplies_left, decide_eq_true_eq, TickSource.spend_left] at h ⊢
      omega
    case isFalse => simp

/-! What a well-formed table holds (`41_keytable.md` R104). -/

theorem tables_of_wellFormed {p : Params} (h : p.wellFormed = true) :
    (∀ c ∈ rowlessCodes, p.chartab[c] = none) ∧
    (∃ row, p.chartab[1] = some row ∧ row.base = 0x31#8 ∧ row.shifted = 0x21#8) ∧
    p.chartab[24] = some ⟨0x73#8, 0x53#8, some 0x13#8, some 0x81#8⟩ ∧
    ∃ row, p.chartab[47] = some row ∧ row.base = 0x20#8 := by
  simp only [Params.wellFormed, Bool.and_eq_true, List.all_eq_true, Option.isNone_iff_eq_none, beq_iff_eq] at h
  obtain ⟨⟨⟨h0, h1⟩, h2⟩, h3⟩ := h
  refine ⟨h0, ?_, h2, ?_⟩
  · cases hr : p.chartab[1] with
    | none => simp [hr] at h1
    | some row => exact ⟨row, rfl, by simpa [hr] using h1⟩
  · cases hr : p.chartab[47] with
    | none => simp [hr] at h3
    | some row => exact ⟨row, rfl, by simpa [hr] using h3⟩

end Sys2Proof.Machine
end

