-- ==== Sys2Proof/Laws/PerInstr.lean ====
section
/-! SUPPORT. Statements made once per operation. `EncodedAsListed`: the word the encoder writes is selected by the
operation's own row of the opcode map, and that row is in the map (`30_encoding.md` R77). -/

namespace Sys2Proof.Laws.EncodedAsListed

/-- The operation's row is in the opcode map and selects its word. -/
def Statement (i : Instr) : Prop := i.row ∈ opcodeTable ∧ i.row.selects (encode i) = true

/-- A word whose bits above its operand bits are those of `pattern` is selected by the mask of those bits. -/
theorem selects_of_bits {mnemonic : String} {w pattern mask : CmdWord}
    (h : ∀ k : Fin 20, (w.getLsbD k && mask.getLsbD k) = pattern.getLsbD k) :
    OpcodeRow.selects ⟨mnemonic, pattern, mask⟩ w = true := by
  have : w &&& mask = pattern := BitVec.eq_of_getLsbD_eq fun k hk => by
    simpa using h ⟨k, hk⟩
  simpa [OpcodeRow.selects] using this

theorem delay (ms : BitVec 16) : Statement (.delay ms) := by
  refine ⟨by simp [opcodeTable, Instr.row], selects_of_bits fun k => ?_⟩
  fin_cases k <;> simp [encode]

theorem keycode (r c : LineIdx) : Statement (.keycode r c) := by
  refine ⟨by simp [opcodeTable, Instr.row], selects_of_bits fun k => ?_⟩
  fin_cases k <;> simp [encode]

theorem resolve (code : ScanCode) (s c f : Bool) : Statement (.resolve code s c f) := by
  refine ⟨by simp [opcodeTable, Instr.row], selects_of_bits fun k => ?_⟩
  fin_cases k <;> simp [encode]

theorem scan : Statement .scan := ⟨by decide, by decide⟩
theorem consume : Statement .consume := ⟨by decide, by decide⟩

theorem push (ch : Byte) : Statement (.push ch) := by
  refine ⟨by simp [opcodeTable, Instr.row], selects_of_bits fun k => ?_⟩
  fin_cases k <;> simp [encode]

theorem pop : Statement .pop := ⟨by decide, by decide⟩
theorem lineIdle : Statement .lineIdle := ⟨by decide, by decide⟩
theorem sendStart : Statement .sendStart := ⟨by decide, by decide⟩

theorem sendBit (b : Bool) : Statement (.sendBit b) := by
  cases b <;> exact ⟨by decide, by decide⟩

theorem sendByte (v : Byte) : Statement (.sendByte v) := by
  refine ⟨by simp [opcodeTable, Instr.row], selects_of_bits fun k => ?_⟩
  fin_cases k <;> simp [encode]

theorem sendKey (v : Byte) : Statement (.sendKey v) := by
  refine ⟨by simp [opcodeTable, Instr.row], selects_of_bits fun k => ?_⟩
  fin_cases k <;> simp [encode]

theorem drain : Statement .drain := ⟨by decide, by decide⟩
theorem dispatch : Statement .dispatch := ⟨by decide, by decide⟩
theorem boot : Statement .boot := ⟨by decide, by decide⟩

end Sys2Proof.Laws.EncodedAsListed
end

