-- ==== Sys2Proof/Tests/Slice0.lean ====
section
/-! SUPPORT. Small tests, each expected result taken from the spec's worked words and vectors (`30_encoding.md` R80,
`95_test_vectors.md`), and one witness for the hypotheses of each statement that has some. -/

namespace Sys2Proof.Tests

open Sys2Proof Sys2Proof.Machine

/-! ## Decoding: words of `30_encoding.md` R80 and of the V-ENC vectors, the others read off the R77 table -/

theorem test_decode_delay : decode 0x003E8#20 = .ok (.delay 1000#16) := by decide
theorem test_decode_keycode : decode 0b00010000000000010111#20 = .ok (.keycode 2#3 7#3) := by decide
theorem test_decode_resolve : decode 0b00100000001000011000#20 = .ok (.resolve 24#6 false true false) := by decide
theorem test_decode_resolve_all : decode 0x20701#20 = .ok (.resolve 1#6 true true true) := by decide
theorem test_decode_scan : decode 0x30000#20 = .ok .scan := by decide
theorem test_decode_consume : decode 0x40000#20 = .ok .consume := by decide
theorem test_decode_push : decode 0b01010000000001000001#20 = .ok (.push 0x41#8) := by decide
theorem test_decode_pop : decode 0x60000#20 = .ok .pop := by decide
theorem test_decode_lineIdle : decode 0b01110000000000000000#20 = .ok .lineIdle := by decide
theorem test_decode_sendStart : decode 0x80000#20 = .ok .sendStart := by decide
theorem test_decode_sendBit : decode 0x90001#20 = .ok (.sendBit true) := by decide
theorem test_decode_sendByte : decode 0xA00FF#20 = .ok (.sendByte 0xFF#8) := by decide
theorem test_decode_sendKey : decode 0xB0041#20 = .ok (.sendKey 0x41#8) := by decide
theorem test_decode_drain : decode 0xC0000#20 = .ok .drain := by decide
theorem test_decode_dispatch : decode 0b11010000000000000000#20 = .ok .dispatch := by decide
theorem test_decode_boot : decode 0xE0000#20 = .ok .boot := by decide

/-- V-ENC7, V-ENC9, V-ENC12, V-ENC13: refused by name. -/
theorem test_decode_refuses :
    decode 0x30001#20 = .error .reservedArgBits ∧ decode 0x50141#20 = .error .reservedArgBits ∧
    decode 0xF0000#20 = .error .reservedOp ∧ decode 0x20040#20 = .error .reservedArgBits := by decide

/-- The table's bits number the word; one that does not fit in 20 bits is refused. -/
theorem test_decodeTableWord :
    decodeTableWord 24 0xB0041 = some (.sendKey 0x41#8) ∧ decodeTableWord 24 0x1B0041 = none := by decide

/-! ## WellFormed: an ill-formed term for each check -/

theorem test_illformed_word_op : CmdWord.wellFormed 0xF0000#20 = false := by decide
theorem test_illformed_word_arg : CmdWord.wellFormed 0x20040#20 = false := by decide

/-- `KEYMAP` T1 of `95_test_vectors.md` section 2. -/
def mapT1 : Vector (Fin 49) 64 :=
  ⟨#[44, 45, 46, 48, 47, 0, 0, 0, 1, 2, 3, 4, 5, 6, 7, 8, 9, 10, 11, 12, 13, 14, 15, 16, 17, 18, 19, 20, 21, 22, 23, 24] ++
   #[25, 26, 27, 28, 29, 30, 31, 32, 33, 34, 35, 36, 37, 38, 39, 40, 41, 42, 43, 0, 0, 0, 0, 0, 0, 0, 0, 0, 0, 0, 0, 0],
   rfl⟩

/-- `KEYMAP` T2: position `(r, c)` holds `8r + c + 1` up to 48. -/
def mapT2 : Vector (Fin 49) 64 :=
  Vector.ofFn fun i => if h : i.val + 1 < 49 then ⟨i.val + 1, h⟩ else 0

/-- `CHARTAB` TC. -/
def rowTC (code : Nat) : Option CharRow :=
  if code = 1 then some ⟨0x31#8, 0x21#8, none, none⟩
  else if code = 2 then some ⟨0x32#8, 0x40#8, none, none⟩
  else if code = 24 then some ⟨0x73#8, 0x53#8, some 0x13#8, some 0x81#8⟩
  else if code = 47 then some ⟨0x20#8, 0x20#8, none, none⟩
  else none

/-- The parameters of a vector: its position table and its `RESOLVE_POINT`, with TC and ascending columns. -/
def params (map : Vector (Fin 49) 64) (rp : ResolvePoint) : Params :=
  ⟨map, Vector.ofFn fun i => rowTC i.val, rp, .ascending, (.low, .low)⟩

/-- TC with another row for one code. -/
def paramsWith (code : Nat) (row : Option CharRow) : Params :=
  { params mapT1 .atLatch with chartab := Vector.ofFn fun i => if i.val = code then row else rowTC i.val }

theorem test_params_wellFormed : (params mapT1 .atLatch).wellFormed = true := by decide
theorem test_hardware_wellFormed : Config.hardware.wellFormed = true ∧ Config.hardware.everyKeyHasRow = true := by decide
theorem test_illformed_rowless : (paramsWith 34 (rowTC 2)).wellFormed = false := by decide
theorem test_illformed_code1 : (paramsWith 1 (some ⟨0x31#8, 0x22#8, none, none⟩)).wellFormed = false := by decide
theorem test_illformed_code1_absent : (paramsWith 1 none).wellFormed = false := by decide
theorem test_illformed_code24 : (paramsWith 24 (some ⟨0x73#8, 0x53#8, none, some 0x81#8⟩)).wellFormed = false := by decide
theorem test_illformed_code47 : (paramsWith 47 (rowTC 2)).wellFormed = false := by decide
theorem test_illformed_code47_absent : (paramsWith 47 none).wellFormed = false := by decide
theorem test_illformed_keyWithoutRow : (params mapT1 .atLatch).everyKeyHasRow = false := by decide

/-! ## One operation -/

/-- The start state of the vectors: the reset state at `S_SCAN` with the parameters `p` and the matrix pressed at `ps` for
one pass. -/
def start (p : Params) (ps : List (LineIdx × LineIdx)) : State :=
  { State.reset with params := p, seq := .scan, cols := idealSamples ps }

/-- The start state with T1. -/
def start1 (rp : ResolvePoint) (ps : List (LineIdx × LineIdx)) : State := start (params mapT1 rp) ps

/-- The start state with T2. -/
def start2 (rp : ResolvePoint) (ps : List (LineIdx × LineIdx)) : State := start (params mapT2 rp) ps

/-- The next state, where there is one. -/
def nextOf : Host.Outcome State Fault Refusal → Option State
  | .next t => some t
  | .fault _ => none
  | .refused _ => none

/-- What `f` reads in the next state of operation `i`. -/
def reads {α : Type} (i : Instr) (s : State) (f : State → α) : Option α := (nextOf (exec i s)).map f

/-- The bytes of the ten slots. -/
def slots (s : State) : List Byte := (List.range 10).map s.buf.read

/-- V-DLY1. -/
theorem test_delay_zero : reads (.delay 0#16) State.reset (fun t => (t.dlyCnt, t.trace)) = some (0#16, []) := by decide
/-- V-DLY4. -/
theorem test_delay_longest : reads (.delay 65535#16) State.reset (fun t => (t.dlyCnt, t.trace)) =
    some (0#16, [.hold 65535]) := by decide

/-- V-TAB1. -/
theorem test_keycode_T1 : reads (.keycode 1 0) (start1 .atLatch []) State.result = some (.code 1#6) := by decide
/-- V-TAB4. -/
theorem test_keycode_T2 : reads (.keycode 2 7) (start2 .atLatch []) State.result = some (.code 24#6) := by decide

/-- E2: control before function before shift. -/
theorem test_resolve_precedence : reads (.resolve 24 true true true) (start1 .atLatch []) State.result =
    some (.char 19#8) := by decide
/-- V-TAB12: modifiers without an entry are passed over. -/
theorem test_resolve_absent_entry : reads (.resolve 1 true true true) (start1 .atLatch []) State.result =
    some (.char 0x21#8) := by decide

/-- V-SCN4: modifiers combine, control wins. -/
theorem test_scan_modifiers : reads .scan (start1 .endOfPass [(0, 0), (0, 2), (0, 3), (3, 7)])
    (fun t => ([t.shift, t.shiftLock, t.ctrl, t.func, t.keyHit], t.scanRet, [t.khRow, t.khCol], t.khCode, t.khChar)) =
    some ([true, false, true, true, true], 4#4, [3, 7], 24#6, 0x13#8) := by decide
/-- V-SCN13: a modifier after the key, under either `RESOLVE_POINT`. -/
theorem test_scan_resolve_point :
    reads .scan (start2 .atLatch [(2, 7), (5, 5)]) (fun t => (t.khChar, t.ctrl)) = some (0x73#8, true) ∧
    reads .scan (start2 .endOfPass [(2, 7), (5, 5)]) (fun t => (t.khChar, t.ctrl)) = some (0x13#8, true) := by decide

/-- V-CON4: a push at slot 9 wraps. -/
theorem test_consume_wrap :
    reads .consume { State.reset with keyHit := true, khChar := 0x81#8, head := 3, tail := 9 }
      (fun t => (t.slot 9, t.tail, t.slot 0, t.keyHit, t.trace)) =
    some (0x81#8, 0, 0x00#8, false, [.hold 115]) := by decide
/-- V-CON3: a key without a character is only cleared. -/
theorem test_consume_no_char :
    reads .consume { State.reset with keyHit := true, khCode := 34#6 } (fun t => (t.keyHit, t.tail, t.trace)) =
    some (false, 0, []) := by decide

/-- The end state of V-RB1: nine characters unread. -/
def nine : State :=
  { State.reset with
    tail := 9
    buf := [(0, 0x41#8), (1, 0x42#8), (2, 0x43#8), (3, 0x44#8), (4, 0x45#8), (5, 0x46#8), (6, 0x47#8), (7, 0x48#8),
      (8, 0x49#8)] }

/-- V-RB3a: the tenth push destroys the oldest character and empties the ring. -/
theorem test_push_tenth : reads (.push 0x4A#8) nine (fun t => (slots t, t.head, t.tail)) =
    some ([0x00#8, 0x42#8, 0x43#8, 0x44#8, 0x45#8, 0x46#8, 0x47#8, 0x48#8, 0x49#8, 0x4A#8], 0, 0) := by decide
/-- V-RB7: a queued 0 reads as empty and is popped all the same. -/
theorem test_pop_zero : reads .pop { State.reset with head := 1, tail := 3, buf := [(2, 0x42#8)] }
    (fun t => (t.result, t.head, t.slot 2)) = some (.char 0#8, 2, 0x42#8) := by decide
/-- V-RB2: the oldest character first. -/
theorem test_pop_oldest : reads .pop nine (fun t => (t.result, t.head, t.slot 0)) =
    some (.char 0x41#8, 1, 0x00#8) := by decide

/-- V-TX1. -/
theorem test_lineIdle : reads .lineIdle { State.reset with data := .low, clock := .low }
    (fun t => (t.trace, t.data, t.clock)) = some ([.d .high, .k .high, .hold 4], .high, .high) := by decide
/-- V-TX2. -/
theorem test_sendStart : reads .sendStart State.reset (fun t => (t.trace, t.data, t.clock)) =
    some ([.d .high, .k .high, .hold 4, .d .low, .k .low, .hold 4], .low, .low) := by decide
/-- V-TX4. -/
theorem test_sendBit_zero : reads (.sendBit false) { State.reset with data := .high, clock := .low }
    (fun t => (t.trace, t.data, t.clock)) =
    some ([.d .low, .k .high, .hold 4, .k .low, .hold 4], .low, .low) := by decide
/-- V-TX8: the data levels of 0x81 after those of the start sequence. -/
theorem test_sendByte_order : reads (.sendByte 0x81#8) State.reset
    (fun t => (t.trace.filter fun e => e == .d .high || e == .d .low, t.txSr, t.bitIdx)) =
    some ([.d .high, .d .low, .d .high, .d .low, .d .low, .d .low, .d .low, .d .low, .d .low, .d .high], 0x81#8, 0#4) := by
  decide

/-- V-TX5: the end state and the first groups of the trace. -/
theorem test_sendKey_end : reads (.sendKey 0x41#8) State.reset
    (fun t => (t.data, t.clock, t.txSr, t.dataOutN, t.clkOutN, t.trace.length)) =
    some (.high, .low, 0x41#8, 0#1, 1#1, 49) := by decide
/-- V-TX5, in full. -/
theorem test_sendKey_trace : reads (.sendKey 0x41#8) State.reset State.trace =
    some ([.d .high, .k .high, .hold 4, .d .high, .k .high, .hold 4, .d .low, .k .low, .hold 4] ++
      [.d .low, .k .high, .hold 4, .k .low, .hold 4, .d .high, .k .high, .hold 4, .k .low, .hold 4] ++
      [.d .low, .k .high, .hold 4, .k .low, .hold 4, .d .low, .k .high, .hold 4, .k .low, .hold 4] ++
      [.d .low, .k .high, .hold 4, .k .low, .hold 4, .d .low, .k .high, .hold 4, .k .low, .hold 4] ++
      [.d .low, .k .high, .hold 4, .k .low, .hold 4, .d .high, .k .high, .hold 4, .k .low, .hold 4]) := by decide

/-- The start state of V-SEQ2: two characters queued. -/
def two : State := { State.reset with tail := 2, buf := [(0, 0x43#8), (1, 0x44#8)] }

/-- V-SEQ2: two frames. -/
theorem test_drain_two : reads .drain two (fun t => (t.head, t.slot 0, t.slot 1, t.txSr)) =
    some (2, 0x00#8, 0x00#8, 0x44#8) := by decide
/-- V-SEQ1. -/
theorem test_drain_empty : exec .drain State.reset = .next State.reset := rfl
/-- P1: one key, end to end. -/
theorem test_dispatch_key : reads .dispatch (start1 .atLatch [(1, 0)])
    (fun t => ((t.head, t.tail, t.khChar, t.txSr), (t.scanRet, t.seq, t.trace.drop 16 |>.take 4))) =
    some ((1, 1, 0x31#8, 0x31#8), (2#4, .scan, [.hold 115, .d .high, .k .high, .hold 4])) := by decide
/-- V-SEQ5: scan code 34 is latched, cleared and not sent. -/
theorem test_dispatch_no_char : reads .dispatch (start1 .atLatch [(5, 1)])
    (fun t => ((t.khRow, t.khCol, t.khCode, t.keyHit), (t.scanRet, t.tail, t.trace.length))) =
    some ((5, 1, 34#6, false), (6#4, 0, 16)) := by decide
/-- V-SEQ3. -/
theorem test_boot : reads .boot State.reset
    (fun t => ((t.seq, t.data, t.clock, t.txSr), (t.trace.take 4, t.trace.length))) =
    some ((.scan, .low, .low, 0#8), ([.hold 1000, .d .high, .k .high, .hold 4], 50)) := by decide

/-! ## One step -/

/-- The host's word runs as the first operation after reset. -/
theorem test_withFetchWord : (nextOf (step (State.reset.withFetchWord 24 0xB0041))).map State.txSr = some 0x41#8 := by
  decide

/-- Reset in mid-frame (`70_reset_and_hazards.md` R239): after three events of `SEND_KEY`. -/
theorem test_reset_midframe :
    (nextOf (step { State.reset with cmds := [0xB0041#20], rst := some 3, txSr := 7#8, shiftLock := true })).map
      (fun t => (t.trace, t.txSr, t.shiftLock, t.seq)) =
    some ([.d .high, .k .high, .hold 4], 0#8, false, .bootDelay) := by decide

/-- A reset before the operation begins appends nothing. -/
theorem test_reset_at_once :
    (nextOf (step { State.reset with seq := .bootSend, rst := some 0 })).map (fun t => (t.trace, t.seq)) =
    some ([], .bootDelay) := by decide

/-- The first step after reset is the boot delay (`10_state.md` R26). -/
theorem test_first_step : (nextOf (step State.reset)).map (fun t => (t.trace, t.seq)) =
    some ([.hold 1000], .bootSend) := by decide

/-! ## Witnesses: for each statement with hypotheses, states and operands that meet them, each clause at a boundary -/

theorem witness_EncodeOfDecodeIsTheWord :
    decode 0x0FFFF#20 = .ok (.delay 65535#16) ∧ decode 0x50000#20 = .ok (.push 0#8) := by decide

theorem witness_DecodeFollowsTheOpcodeMap :
    decode 0x907FF#20 = .error .reservedArgBits ∧ decode 0x90000#20 = .ok (.sendBit false) ∧
    Instr.row (.sendBit false) ∈ opcodeTable ∧ Instr.row .boot ∈ opcodeTable := by decide

/-- The reset state with the command word `w` issued. -/
def issuing (w : CmdWord) : State := { State.reset with cmds := [w] }

theorem witness_UnselectedWordIsRefused :
    ((issuing 0xF0000#20).rst = none ∧ (issuing 0xF0000#20).cmds = [0xF0000#20] ∧
      CmdWord.wellFormed 0xF0000#20 = false ∧ opField 0xF0000#20 = 15#4) ∧
    ((issuing 0xE8000#20).rst = none ∧ (issuing 0xE8000#20).cmds = [0xE8000#20] ∧
      CmdWord.wellFormed 0xE8000#20 = false ∧ opField 0xE8000#20 ≠ 15#4) := by decide

theorem witness_StepRunsTheDecodedCommand :
    (issuing 0x50000#20).rst = none ∧ (issuing 0x50000#20).cmds = [0x50000#20] ∧
    decode 0x50000#20 = .ok (.push 0#8) := by decide

/-- The state before the drain of `two`, and of an empty ring. -/
def draining (s : State) : State := { s with seq := .drain }

theorem witness_StepRunsTheSequencer :
    (State.reset.rst = none ∧ State.reset.cmds = [] ∧ State.reset.seq = .bootDelay) ∧
    (∃ t, exec .pop (draining State.reset) = .next t ∧ t.result = .char 0#8) ∧
    ∃ t, exec .pop (draining two) = .next t ∧ t.result = .char 0x43#8 ∧ (0x43#8 : Byte) ≠ 0#8 :=
  ⟨⟨rfl, rfl, rfl⟩, ⟨_, rfl, rfl⟩, ⟨_, rfl, rfl, by decide⟩⟩

theorem witness_StepRunsTheSequencer_states :
    ({ State.reset with seq := .bootSend } : State).seq = .bootSend ∧ (start1 .atLatch []).seq = .scan ∧
    ({ State.reset with seq := .consume } : State).seq = .consume ∧ (draining two).seq = .drain := by decide

/-- A tick source that stops after `n` ticks. -/
def ticking (n : Nat) (s : State) : State := { s with ticks := .left n }

theorem witness_EveryOperationIsTotal :
    State.reset.ticks = .forever ∧ exec (.delay 1#16) (ticking 0 State.reset) = .fault .tickStopped := ⟨rfl, rfl⟩

theorem witness_DelayCountsItsTicks :
    ((65535#16 : BitVec 16) ≠ 0#16 ∧ (ticking 65535 State.reset).ticks.supplies (65535#16).toNat = true) ∧
    (ticking 65534 State.reset).ticks = .left 65534 ∧ 65534 < (65535#16).toNat := by decide

theorem witness_ResolveFollowsThePrecedence :
    48 < (49#6 : ScanCode).toNat ∧ (start1 .atLatch []).params.chartab[(48#6 : ScanCode).toNat]'(by decide) = none ∧
    (start1 .atLatch []).params.chartab[(24#6 : ScanCode).toNat]'(by decide) =
      some ⟨0x73#8, 0x53#8, some 0x13#8, some 0x81#8⟩ ∧
    (start1 .atLatch []).params.chartab[(1#6 : ScanCode).toNat]'(by decide) = some ⟨0x31#8, 0x21#8, none, none⟩ := by
  decide

theorem witness_ResolveGivesTheFixedCharacters : (start1 .atLatch []).params.wellFormed = true := by decide

theorem witness_UnmappedCodesResolveToZero :
    (start1 .atLatch []).params.wellFormed = true ∧
    (48#6 : ScanCode) ∈ [0#6, 34#6, 44#6, 45#6, 46#6, 48#6] ∧ 48 < (63#6 : ScanCode).toNat := by decide

/-- A state in which a key is pending. -/
def pending : State := { start1 .atLatch [(3, 7)] with keyHit := true, khCode := 1#6, khChar := 0x31#8, khRow := 1 }

theorem witness_ScanWhilePendingIsNoOp : pending.keyHit = true := rfl

theorem witness_ScanDrivesAndSamplesEveryRowOnce : (start1 .atLatch [(7, 7)]).keyHit = false := rfl

theorem witness_ScanLatchesTheLastKey :
    lastKey (presses (params mapT1 .atLatch) ((start1 .atLatch [(1, 0), (0, 3), (3, 7)]).samples 8)) =
      some ⟨3, 7, 24#6⟩ ∧
    lastKey (presses (params mapT1 .atLatch) ((start1 .atLatch [(0, 1)]).samples 8)) = none := by decide

theorem witness_ScanResolvesAtTheResolvePoint :
    (start2 .endOfPass [(0, 0), (5, 3)]).keyHit = false ∧
    lastKey (presses (start2 .endOfPass [(0, 0), (5, 3)]).params ((start2 .endOfPass [(0, 0), (5, 3)]).samples 8)) =
      some ⟨0, 0, 1#6⟩ := by decide

/-- V-SCN12 under `at_latch`: the shift key lies after the key. -/
theorem witness_LaterModifiersMissALatchedKey :
    (start2 .atLatch [(0, 0)]).params.resolvePoint = .atLatch ∧
    (start2 .atLatch [(0, 0)]).params = (start2 .atLatch [(0, 0), (5, 3)]).params ∧
    lastKey (presses (params mapT2 .atLatch) (idealSamples [(0, 0)])) = some ⟨0, 0, 1#6⟩ ∧
    lastKey (presses (params mapT2 .atLatch) (idealSamples [(0, 0), (5, 3)])) = some ⟨0, 0, 1#6⟩ ∧
    upToLastKey (presses (params mapT2 .atLatch) (idealSamples [(0, 0)])) =
      upToLastKey (presses (params mapT2 .atLatch) (idealSamples [(0, 0), (5, 3)])) ∧
    (start2 .atLatch [(0, 0), (5, 3)]).samples 8 = idealSamples [(0, 0), (5, 3)] := by decide

theorem witness_ConsumePushesAndClears :
    State.reset.keyHit = false ∧
    (({ pending with khChar := 0#8 } : State).keyHit = true ∧ ({ pending with khChar := 0#8 } : State).khChar = 0#8) ∧
    ((ticking 115 pending).keyHit = true ∧ (ticking 115 pending).khChar ≠ 0#8 ∧
      (ticking 115 pending).ticks.supplies 115 = true) := by decide

theorem witness_PopTakesTheOldest : State.reset.head = State.reset.tail ∧ nine.head ≠ nine.tail := by decide

theorem witness_RingDeliversTheLastPushesModuloTen :
    ({ State.reset with head := 9, tail := 9 } : State).head = ({ State.reset with head := 9, tail := 9 } : State).tail := rfl

theorem witness_TenthUnreadPushEmptiesTheRing : nine.unread = 9 := by decide

theorem witness_LineIdleRaisesBothLines : (ticking 4 State.reset).ticks.supplies 4 = true := by decide
theorem witness_SendStartPrimesBothLines : (ticking 8 State.reset).ticks.supplies 8 = true := by decide
theorem witness_SendBitClocksOneBit : (ticking 8 nine).ticks.supplies 8 = true := by decide
theorem witness_SendByteSendsMsbFirst : (ticking 72 State.reset).ticks.supplies 72 = true := by decide
theorem witness_SendKeySendsOneFrame : (ticking 76 State.reset).ticks.supplies 76 = true := by decide
theorem witness_ReceiverReadsTheByteSent : (ticking 76 nine).ticks.supplies 76 = true := by decide

theorem witness_TransmitterHangsWithoutTicks :
    ((ticking 3 State.reset).ticks = .left 3 ∧ 3 < 4) ∧ ((ticking 7 State.reset).ticks = .left 7 ∧ 7 < 8) ∧
    ((ticking 71 State.reset).ticks = .left 71 ∧ 71 < 72) ∧ ((ticking 75 State.reset).ticks = .left 75 ∧ 75 < 76) := by
  decide

theorem witness_PinsCarryTheInverse :
    ({ State.reset with data := .high, clock := .low } : State).data = .high ∧
    ({ State.reset with data := .high, clock := .low } : State).clock = .low ∧
    ∃ t, exec (.sendKey 0xFF#8) State.reset = .next t := ⟨rfl, rfl, _, rfl⟩

theorem witness_PinsCarryTheInverse_other :
    ({ State.reset with data := .low, clock := .high } : State).data = .low ∧
    ({ State.reset with data := .low, clock := .high } : State).clock = .high := by decide

theorem witness_DrainIsTheLoopOfPopAndSend :
    (∃ t, exec .pop State.reset = .next t ∧ t.result = .char 0#8) ∧
    ∃ t u, exec .pop two = .next t ∧ t.result = .char 0x43#8 ∧ (0x43#8 : Byte) ≠ 0#8 ∧
      exec (.sendKey 0x43#8) (t.answer two.result) = .next u :=
  ⟨⟨_, rfl, rfl⟩, _, _, rfl, rfl, by decide, rfl⟩

theorem witness_DrainSendsTheQueueInOrder :
    (State.reset.toSend = [] ∧ State.reset.ticks.supplies (76 * State.reset.toSend.length) = true) ∧
    (nine.toSend.getLast? = some 0x49#8 ∧ (ticking 684 nine).ticks.supplies (76 * nine.toSend.length) = true ∧
      ∀ ch ∈ nine.queued, ch ≠ 0#8) := by decide

theorem witness_DispatchIsScanConsumeDrain :
    ∃ t1 t2 t3, exec .scan (start1 .atLatch [(1, 0)]) = .next t1 ∧ exec .consume t1 = .next t2 ∧
      exec .drain t2 = .next t3 := ⟨_, _, _, rfl, rfl, rfl⟩

theorem witness_DispatchReturnsToTheBoundary :
    (ticking 191 (start1 .atLatch [(1, 0)])).AtBoundary ∧
    (ticking 191 (start1 .atLatch [(1, 0)])).ticks.supplies 191 = true := ⟨⟨rfl, rfl⟩, rfl⟩

theorem witness_DispatchCompletes : (ticking 799 { nine with keyHit := true }).ticks.supplies (115 + 76 * 9) = true := by
  decide

theorem witness_DispatchSendsTheKeyPressed :
    (ticking 191 (start1 .atLatch [(1, 0)])).AtBoundary ∧
    lastKey (presses (params mapT1 .atLatch) (idealSamples [(1, 0)])) = some ⟨1, 0, 1#6⟩ ∧
    charFor (params mapT1 .atLatch) false
      (resolvingPresses (params mapT1 .atLatch) (presses (params mapT1 .atLatch) (idealSamples [(1, 0)]))) 1#6 = 0x31#8 ∧
    (start1 .atLatch [(1, 0)]).samples 8 = idealSamples [(1, 0)] := ⟨⟨rfl, rfl⟩, by decide, by decide, by decide⟩

theorem witness_DispatchWithNoKeyChangesLittle :
    (start1 .atLatch [(7, 7)]).AtBoundary ∧
    presses (params mapT1 .atLatch) ((start1 .atLatch [(7, 7)]).samples 8) = [] := ⟨⟨rfl, rfl⟩, by decide⟩

theorem witness_BootSendsTheZeroByte : (ticking 1076 State.reset).ticks.supplies 1076 = true := by decide

theorem witness_CompositesAreTheirExpansions_frame :
    (∃ t, execAll [.sendStart, .sendBit true, .sendBit false, .sendBit false, .sendBit false, .sendBit false,
      .sendBit false, .sendBit false, .sendBit true] State.reset = .next t) ∧
    ∃ t, execAll [.lineIdle, .sendByte 0x81#8] State.reset = .next t := ⟨⟨_, rfl⟩, _, rfl⟩

theorem witness_CompositesAreTheirExpansions_sequencer :
    (∃ t, execAll [.scan, .consume, .drain] (start1 .atLatch [(1, 0)]) = .next t) ∧
    ∃ t, execAll [.delay 1000#16, .sendKey 0x00#8] State.reset = .next t := ⟨⟨_, rfl⟩, _, rfl⟩

theorem witness_SequencerTurnIsDispatch :
    (start1 .atLatch [(1, 0)]).seq = .scan ∧ (start1 .atLatch [(1, 0)]).rst = none ∧
    (start1 .atLatch [(1, 0)]).cmds = [] ∧ ∃ t, exec .dispatch (start1 .atLatch [(1, 0)]) = .next t :=
  ⟨rfl, rfl, rfl, _, rfl⟩

theorem witness_SequencerBootsFirst :
    State.reset.seq = .bootDelay ∧ State.reset.rst = none ∧ State.reset.cmds = [] ∧
    ∃ t, exec .boot State.reset = .next t := ⟨rfl, rfl, rfl, _, rfl⟩

theorem witness_SequencerNeverHalts :
    (draining nine).ticks = .forever ∧ (draining nine).cmds = [] ∧ (draining nine).seq = .drain ∧
    (draining nine).rst = none := by decide

theorem witness_ResetAbandonsEverything : ({ pending with rst := some 0 } : State).rst = some 0 := rfl

/-- A frame cut by reset after `n` events, with the tick source `ticks`. -/
def cut (n : Nat) (ticks : TickSource) : State := { State.reset with cmds := [0xB0041#20], rst := some n, ticks := ticks }

theorem witness_ResetTruncatesTheTrace :
    (cut 3 .forever).rst = some 3 ∧ (cut 3 .forever).ticks = .forever ∧ (cut 49 (.left 75)).rst = some 49 ∧
    (cut 49 (.left 75)).ticks = .left 75 ∧
    ∃ u, step { cut 49 (.left 75) with rst := none, ticks := .forever } = .next u := ⟨rfl, rfl, rfl, rfl, _, rfl⟩

theorem witness_StepKeepsTheInvariants :
    { pending with buf := [(0, 0x41#8)], tail := 1 }.Inv ∧
    ∃ t, step { pending with buf := [(0, 0x41#8)], tail := 1 } = .next t :=
  ⟨⟨by decide, by decide, by decide, by decide, by decide, by decide, .inl rfl, by decide⟩, _, rfl⟩

theorem witness_SequencerKeepsItsInvariant :
    { pending with seq := .consume }.cmds = [] ∧ { pending with seq := .consume }.SequencerInv ∧
    (draining { two with head := 1 }).SequencerInv ∧
    ∃ t, step { pending with seq := .consume } = .next t := ⟨rfl, rfl, ⟨rfl, by decide⟩, _, rfl⟩

theorem witness_RegistersHaveOnlyTheirWriters :
    (∃ t, exec (.keycode 7 7) pending = .next t) ∧ (∃ t, exec (.push 0#8) pending = .next t) ∧
    Instr.scans (.keycode 7 7) = false ∧ Instr.consumes (.keycode 7 7) = false ∧ Instr.pushes (.keycode 7 7) = false ∧
    Instr.pops (.keycode 7 7) = false ∧ Instr.sendsByte (.keycode 7 7) = false ∧
    Instr.drivesLines (.keycode 7 7) = false ∧ Instr.delays (.keycode 7 7) = false ∧
    Instr.sequences (.keycode 7 7) = false ∧ Instr.returns (.push 0#8) = false :=
  ⟨⟨_, rfl⟩, ⟨_, rfl⟩, rfl, rfl, rfl, rfl, rfl, rfl, rfl, rfl, rfl⟩

theorem witness_OnlyResetClearsShiftLock :
    (∃ t, step { start1 .atLatch [(1, 0)] with shiftLock := true } = .next t) ∧
    ∃ t, step { start1 .atLatch [(1, 0)] with shiftLock := true, rst := some 0 } = .next t := ⟨⟨_, rfl⟩, _, rfl⟩

theorem witness_PendingKeySurvivesUntilConsumed :
    (∃ t, exec (.push 1#8) State.reset = .next t ∧ State.reset.keyHit = false ∧ Instr.scans (.push 1#8) = false) ∧
    (∃ t, exec .scan pending = .next t ∧ pending.keyHit = true ∧ Instr.consumes .scan = false) ∧
    ∃ t, exec .consume pending = .next t ∧ Instr.consumes .consume = true :=
  ⟨⟨_, rfl, rfl, rfl⟩, ⟨_, rfl, rfl, rfl⟩, _, rfl, rfl⟩

theorem witness_ControlOverFunctionOverShiftOverBase :
    (start1 .atLatch []).params.chartab[(24#6 : ScanCode).toNat]'(by decide) =
      some ⟨0x73#8, 0x53#8, some 0x13#8, some 0x81#8⟩ ∧ (start1 .atLatch []).params.wellFormed = true := by decide

theorem witness_TraceOnlyGrows : ∃ t, step { pending with trace := [.hold 1] } = .next t := ⟨_, rfl⟩

/-- The matrix answers the same eight samples twice (P3: control and the key with scan code 24 held down). -/
def held : State :=
  { ticking 382 (start1 .atLatch []) with cols := idealSamples [(0, 2), (3, 7)] ++ idealSamples [(0, 2), (3, 7)] }

theorem witness_HeldKeyRepeats :
    held.AtBoundary ∧ held.ticks.supplies 382 = true ∧ held.cols.drop 8 = held.samples 8 ∧ held.cols.length = 16 ∧
    seen Config.codeShiftLock (presses held.params (held.samples 8)) = false ∧
    lastKey (presses held.params (held.samples 8)) = some ⟨3, 7, 24#6⟩ ∧
    charFor held.params held.shiftLock (resolvingPresses held.params (presses held.params (held.samples 8))) 24#6 =
      0x13#8 := ⟨⟨rfl, rfl⟩, by decide, by decide, by decide, by decide, by decide, by decide⟩

end Sys2Proof.Tests
end

section
/-! SUPPORT. The trace only grows (`00_scope.md` R8): what was on the ports before an operation, or before the reset that
abandons it, stays in the trace. -/

namespace Sys2Proof.Machine

/-- Waiting for an operation's ticks takes no event away. -/
theorem awaiting_appends_trace {op : State → State} {s t : State} (h : awaiting op s = .next t)
    (hop : ∃ evs, (op s).trace = s.trace ++ evs) : ∃ evs, t.trace = s.trace ++ evs := by
  rwa [awaiting_next h]

theorem exec_appends_trace {i : Instr} {s t : State} (h : exec i s = .next t) :
    ∃ evs, t.trace = s.trace ++ evs := by
  rw [exec_eq] at h
  exact awaiting_appends_trace h (effect_trace i s)

/-- Of the abandoned operation's events, those that were reached are appended. -/
theorem resetDuring_trace (n : Nat) (s : State) :
    (resetDuring n s).trace = s.trace ++ reached s.ticks ((turnEvents s).take n) := rfl

/-- Settles O56, by the three ways a step can answer: a command word's operation, the sequencer's, or reset. -/
theorem traceOnlyGrows : Obligations.TraceOnlyGrows := by
  intro s t h
  obtain ⟨-, w, rest, i, -, -, hexec⟩ | ⟨-, -, hturn⟩ | ⟨n, -, rfl⟩ := step_cases h
  · exact exec_appends_trace (s := { s with cmds := rest }) hexec
  · exact awaiting_appends_trace hturn (sequencerTurn_trace s)
  · exact ⟨_, resetDuring_trace n s⟩

end Sys2Proof.Machine
end

section
/-! SUPPORT. The invariants of `10_state.md` R31 at reset and after every step: one lemma per part an operation is made
of, then per operation, then per step. -/

namespace Sys2Proof.Machine

/-! Reset. -/

/-- The reset values meet the invariants wherever the tables do. -/
theorem applyReset_inv {s : State} (h : s.params.wellFormed = true) : s.applyReset.Inv where
  ring := Memory.wf_nil
  tailSlotEmpty := rfl
  codeDefined := by simp [State.applyReset]
  pendingKey := nofun
  result := by simp [State.applyReset]
  bits := by simp [State.applyReset]
  rowLines := .inl rfl
  tables := h

/-- Nothing of the abandoned operation but its events outlives a reset, so the invariants hold again. -/
theorem resetDuring_inv {s : State} (n : Nat) (h : s.params.wellFormed = true) : (resetDuring n s).Inv :=
  { applyReset_inv h with }

/-! The parts. The update `{ h with … }` names the clauses the part touches; each other clause speaks of fields it leaves. -/

theorem goto_inv {s : State} (q : Seq) (h : s.Inv) : (s.goto q).Inv := { h with }
theorem answer_inv {s : State} (r : CmdResult) (h : s.Inv) : (s.answer r).Inv := { h with }

theorem push_inv {s : State} (ch : Byte) (h : s.Inv) : (push ch s).Inv :=
  { h with ring := push_wf h.ring, tailSlotEmpty := push_tail_slot ch s }

theorem pop_inv {s : State} (h : s.Inv) : (pop s).Inv := by
  have hring := pop_wf h.ring
  have htail := pop_tail_slot h.tailSlotEmpty
  rw [pop_eq] at hring htail ⊢
  exact { h with ring := hring, tailSlotEmpty := htail }

theorem delay_inv {s : State} (ms : BitVec 16) (h : s.Inv) : (delay ms s).Inv := by
  unfold delay
  split
  · exact h
  · exact { h with }

theorem consume_inv {s : State} (h : s.Inv) : (consume s).Inv := by
  obtain ⟨-, he⟩ | ⟨-, -, he⟩ | ⟨-, -, he⟩ := consume_cases s <;> rw [he]
  · exact h
  · exact { h with pendingKey := nofun }
  · exact { push_inv s.khChar h with pendingKey := nofun }

theorem sendByte_inv {s : State} (v : Byte) (h : s.Inv) : (sendByte v s).Inv := by
  rw [sendByte_eq]
  exact { h with bits := by simp }

theorem lineIdle_inv {s : State} (h : s.Inv) : (lineIdle s).Inv := by
  rw [lineIdle_eq]
  exact { h with }

theorem sendKey_inv {s : State} (v : Byte) (h : s.Inv) : (sendKey v s).Inv :=
  sendByte_inv v (lineIdle_inv h)

theorem drain_inv {s : State} (h : s.Inv) : (drain s).Inv := by
  induction s using drain_induction with
  | stop s hz =>
    rw [drain_eq, if_pos hz]
    exact pop_inv h
  | send s hne ih =>
    rw [drain_eq, if_neg hne]
    exact ih (sendKey_inv _ (pop_inv h))

/-- A pass names one of the eight rows, or none. -/
theorem rowResult_le (ps : List Press) : (rowResult ps).toNat ≤ 8 := by
  unfold rowResult
  cases ps.getLast? with
  | none => simp
  | some k =>
    have := k.row.isLt
    simp only [BitVec.toNat_add, BitVec.toNat_setWidth, BitVec.toNat_ofNat]
    omega

/-- The code in the record after a pass is defined, and it is a key's where the pass latched one: the record is that of the
last key among the presses, or the old one with nothing latched. -/
theorem scanPass_code {s : State} (hidle : s.keyHit = false) (hcode : s.khCode.toNat ≤ 48) :
    (scanPass s).khCode.toNat ≤ 48 ∧
    ((scanPass s).keyHit = true → (scanPass s).khCode ≠ 0#6 ∧ isModifier (scanPass s).khCode = false) := by
  obtain ⟨-, -, -, -, -, hhit⟩ := scanPass_outcome hidle rfl
  cases hk : lastKey (presses s.params (s.samples 8)) with
  | none =>
    obtain ⟨-, -, hkept, -⟩ := scanPass_no_record hidle hk
    exact ⟨hkept ▸ hcode, by simp [hhit, hk]⟩
  | some k =>
    obtain ⟨-, -, hlatched⟩ := scanPass_record hk
    obtain ⟨hmem, hkey⟩ := lastKey_spec hk
    obtain ⟨hne, hle⟩ := presses_defined hmem
    rw [hlatched]
    exact ⟨hle, fun _ => ⟨hne, hkey⟩⟩

theorem scanPass_inv {s : State} (hidle : s.keyHit = false) (h : s.Inv) : (scanPass s).Inv := by
  obtain ⟨-, -, -, -, hret, -⟩ := scanPass_outcome hidle rfl
  obtain ⟨hcode, hpending⟩ := scanPass_code hidle h.codeDefined
  have hres : (scanPass s).scanRet.toNat ≤ 8 := hret ▸ rowResult_le _
  rw [scanPass_frame] at hcode hpending hres ⊢
  exact { h with
    codeDefined := hcode, pendingKey := hpending, result := hres, rowLines := .inr ⟨7#3, rfl⟩ }

theorem scan_inv {s : State} (h : s.Inv) : (scan s).Inv := by
  cases hk : s.keyHit with
  | false =>
    rw [scan_of_idle hk]
    exact scanPass_inv hk h
  | true =>
    rw [scan_of_pending hk]
    exact { h with result := by simp }

/-! The operations, and a step. -/

theorem effect_inv (i : Instr) {s : State} (h : s.Inv) : (effect i s).Inv := by
  cases i with
  | delay ms => exact delay_inv ms h
  | keycode r c => exact answer_inv _ h
  | resolve code sh ct fn => exact answer_inv _ h
  | scan => exact answer_inv _ (scan_inv h)
  | consume => exact consume_inv h
  | push ch => exact push_inv ch h
  | pop => exact answer_inv _ (pop_inv h)
  | lineIdle => exact lineIdle_inv h
  | sendStart =>
    rw [effect, sendStart_eq]
    exact { h with }
  | sendBit b =>
    rw [effect, sendBit_eq]
    exact { h with }
  | sendByte v => exact sendByte_inv v h
  | sendKey v => exact sendKey_inv v h
  | drain => exact drain_inv h
  | dispatch =>
    rw [effect, dispatch_eq]
    exact goto_inv _ (drain_inv (consume_inv (scan_inv h)))
  | boot =>
    rw [effect, boot_eq]
    exact { h with bits := by simp }

theorem sequencerTurn_inv {s : State} (h : s.Inv) : (sequencerTurn s).Inv := by
  unfold sequencerTurn
  split
  · exact goto_inv _ (delay_inv _ h)
  · exact goto_inv _ (sendKey_inv _ h)
  · exact goto_inv _ (scan_inv h)
  · exact goto_inv _ (consume_inv h)
  · split
    · exact goto_inv _ (pop_inv h)
    · exact sendKey_inv _ (pop_inv h)

/-- Waiting spends ticks, of which the invariants say nothing. -/
theorem awaiting_inv {op : State → State} {s t : State} (h : awaiting op s = .next t) (hop : (op s).Inv) : t.Inv := by
  rw [awaiting_next h]
  exact { hop with }

/-- Settles O49, by the three ways a step can answer: a command word's operation, the sequencer's, or reset. -/
theorem stepKeepsTheInvariants : Obligations.StepKeepsTheInvariants := by
  intro s t hinv hstep
  obtain ⟨-, w, rest, i, -, -, hexec⟩ | ⟨-, -, hturn⟩ | ⟨n, -, rfl⟩ := step_cases hstep
  · rw [exec_eq] at hexec
    exact awaiting_inv hexec (effect_inv i { hinv with })
  · exact awaiting_inv hturn (sequencerTurn_inv hinv)
  · exact resetDuring_inv n hinv.tables

/-- Settles O48: this hardware's tables have the entries the spec fixes, and the reset values do the rest. -/
theorem invariantsHoldAtReset : Obligations.InvariantsHoldAtReset := by
  have htables : State.reset.params.wellFormed = true := by decide
  exact { applyReset_inv htables with }

end Sys2Proof.Machine
end

section
/-! SUPPORT. Reset (`10_state.md` R30): the values every register takes, whatever operation it abandons. -/

namespace Sys2Proof.Machine

/-- Settles O45, reading each register off the reset state. -/
theorem resetStateHoldsTheResetValues : Obligations.ResetStateHoldsTheResetValues :=
  ⟨rfl, rfl, rfl, rfl, rfl, rfl, rfl, rfl, rfl, rfl, rfl, rfl, fun _ => rfl, rfl, rfl, rfl, rfl, rfl, rfl, rfl⟩

/-- Settles O46: a step with reset due is `resetDuring`, which writes every register. -/
theorem resetAbandonsEverything : Obligations.ResetAbandonsEverything := by
  intro s n hrst
  exact ⟨resetDuring n s, step_of_reset hrst, rfl, rfl, rfl, rfl, rfl, rfl, rfl, rfl, rfl, rfl, rfl, rfl, fun _ => rfl,
    rfl, rfl, rfl, rfl, rfl, rfl, rfl, rfl, rfl, rfl⟩

/-- Settles O50: the reset values are Idle and an empty ring. -/
theorem sequencerInvariantHoldsAtReset : Obligations.SequencerInvariantHoldsAtReset := ⟨rfl, rfl⟩

end Sys2Proof.Machine
end

section
/-! SUPPORT. How `awaiting` passes a change of fields it does not look at from an operation to its answer. -/

namespace Sys2Proof.Machine

/-- `awaiting` looks at what the operation leaves, and at the trace and the ticks it starts from: two operations whose
outcomes differ by a change `f` of other fields answer alike but for `f`. -/
theorem awaiting_map {f op op' : State → State} {s s' : State} (hop : op' s' = f (op s))
    (hstart : s'.trace = s.trace ∧ s'.ticks = s.ticks) (htrace : ∀ t, (f t).trace = t.trace)
    (hticks : ∀ t k, f { t with ticks := k } = { f t with ticks := k }) :
    awaiting op' s' = onNext f (awaiting op s) := by
  have hevents : newEvents s' (f (op s)) = newEvents s (op s) := by
    rw [newEvents, newEvents, htrace, hstart.1]
  obtain ⟨hsupply, he⟩ | ⟨hsupply, he⟩ := awaiting_cases op s <;> rw [he]
  · rw [onNext, hticks]
    simp only [awaiting, hop, hevents, hstart.2, hsupply, if_true]
  · simp [awaiting, hop, hevents, hstart.2, hsupply, onNext]

theorem onNext_id (o : Host.Outcome State Fault Refusal) : onNext id o = o := by cases o <;> rfl

end Sys2Proof.Machine
end

section
/-! SUPPORT. The environment's fields: what commutes with a change of them leaves them alone, and does not read the input
halves of the serial lines (`10_state.md` R16, `20_memory.md` R47). -/

namespace Sys2Proof.Machine

/-- The environment's fields of a state. -/
def State.env (s : State) : Env := ⟨s.ticks, s.rst, s.cmds, s.dataIn, s.clkIn⟩

theorem State.withEnv_env (s : State) : s.withEnv s.env = s := rfl
theorem State.env_withEnv (s : State) (e : Env) : (s.withEnv e).env = e := rfl

theorem State.withSerialInputs_eq (s : State) (d k : BitVec 1) :
    s.withSerialInputs d k = s.withEnv { s.env with dataIn := d, clkIn := k } := rfl

section
variable {op : State → State} (hop : ∀ s e, op (s.withEnv e) = (op s).withEnv e)
include hop

/-- What commutes with every change of the environment's fields writes none of them. -/
theorem env_of_commutes (s : State) : (op s).env = s.env := by
  have hself : op s = (op s).withEnv s.env := by rw [← hop, State.withEnv_env]
  rw [hself, State.env_withEnv]

theorem commutes_withSerialInputs (s : State) (d k : BitVec 1) :
    op (s.withSerialInputs d k) = (op s).withSerialInputs d k := by
  rw [State.withSerialInputs_eq, hop, State.withSerialInputs_eq, env_of_commutes hop]

theorem awaiting_withSerialInputs (s : State) (d k : BitVec 1) :
    awaiting op (s.withSerialInputs d k) = onNext (fun t => t.withSerialInputs d k) (awaiting op s) :=
  awaiting_map (commutes_withSerialInputs hop s d k) ⟨rfl, rfl⟩ (fun _ => rfl) fun _ _ => rfl

end

theorem effect_env (i : Instr) (s : State) : (effect i s).env = s.env := env_of_commutes (effect_withEnv i) s

theorem sequencerTurn_env (s : State) : (sequencerTurn s).env = s.env := env_of_commutes sequencerTurn_withEnv s

theorem exec_withSerialInputs (i : Instr) (s : State) (d k : BitVec 1) :
    exec i (s.withSerialInputs d k) = onNext (fun t => t.withSerialInputs d k) (exec i s) := by
  rw [exec_eq, exec_eq, awaiting_withSerialInputs (effect_withEnv i)]

theorem runCommand_withSerialInputs (w : CmdWord) (s : State) (d k : BitVec 1) :
    runCommand w (s.withSerialInputs d k) = onNext (fun t => t.withSerialInputs d k) (runCommand w s) := by
  unfold runCommand
  split
  · exact exec_withSerialInputs _ s d k
  · rfl

theorem turn_withSerialInputs (s : State) (d k : BitVec 1) :
    turn (s.withSerialInputs d k) = onNext (fun t => t.withSerialInputs d k) (turn s) := by
  have hcmds : (s.withSerialInputs d k).cmds = s.cmds := rfl
  unfold turn
  rw [hcmds]
  split
  case h_1 w rest _ => exact runCommand_withSerialInputs w { s with cmds := rest } d k
  case h_2 => exact awaiting_withSerialInputs sequencerTurn_withEnv s d k

/-- The events of the next operation do not depend on the serial inputs. -/
theorem turnEvents_withSerialInputs (s : State) (d k : BitVec 1) :
    turnEvents (s.withSerialInputs d k) = turnEvents s := by
  have hturn : turn { s.withSerialInputs d k with ticks := .forever } =
      onNext (fun t => t.withSerialInputs d k) (turn { s with ticks := .forever }) :=
    turn_withSerialInputs { s with ticks := .forever } d k
  unfold turnEvents
  rw [hturn]
  cases turn { s with ticks := .forever } <;> rfl

theorem resetDuring_withSerialInputs (n : Nat) (s : State) (d k : BitVec 1) :
    resetDuring n (s.withSerialInputs d k) = (resetDuring n s).withSerialInputs d k := by
  unfold resetDuring
  rw [turnEvents_withSerialInputs]
  rfl

/-- Settles O55, for an operation and for the reset that abandons one. -/
theorem serialInputsAreNeverRead : Obligations.SerialInputsAreNeverRead := by
  intro s d k
  have hrst : (s.withSerialInputs d k).rst = s.rst := rfl
  unfold step
  rw [hrst]
  cases s.rst with
  | none => exact turn_withSerialInputs s d k
  | some n => exact congrArg Host.Outcome.next (resetDuring_withSerialInputs n s d k)

end Sys2Proof.Machine
end

section
/-! SUPPORT. The hard-wired sequencer (`10_state.md` R26): each of its turns is the operation its state names, and what
holds of each state while no command word is issued (R31). -/

namespace Sys2Proof.Machine

/-- A result that is taken back at once leaves no mark. -/
theorem answer_answer_self (s : State) (r : CmdResult) : (s.answer r).answer s.result = s := rfl

/-! The turn of each sequencer state. -/

theorem sequencerTurn_of_bootDelay {s : State} (h : s.seq = .bootDelay) :
    sequencerTurn s = (effect (.delay Config.bootDel) s).goto .bootSend := by
  simp only [sequencerTurn, h, effect]

theorem sequencerTurn_of_bootSend {s : State} (h : s.seq = .bootSend) :
    sequencerTurn s = (effect (.sendKey Config.bootByte) s).goto .scan := by
  simp only [sequencerTurn, h, effect]

theorem sequencerTurn_of_scan {s : State} (h : s.seq = .scan) : sequencerTurn s = (scan s).goto .consume := by
  simp only [sequencerTurn, h]

theorem sequencerTurn_of_consume {s : State} (h : s.seq = .consume) :
    sequencerTurn s = (effect .consume s).goto .drain := by
  simp only [sequencerTurn, h, effect]

theorem sequencerTurn_of_drain_zero {s : State} (h : s.seq = .drain) (hc : popChar s = 0#8) :
    sequencerTurn s = (pop s).goto .scan := by
  simp only [sequencerTurn, h, hc, if_true]

theorem sequencerTurn_of_drain_char {s : State} (h : s.seq = .drain) (hc : popChar s ≠ 0#8) :
    sequencerTurn s = effect (.sendKey (popChar s)) (pop s) := by
  simp only [sequencerTurn, h, hc, if_false, effect]

/-- A turn that is an operation with a move of `seq` answers what the operation answers, moved. -/
theorem awaiting_turn_of_goto {i : Instr} {q : Seq} {s : State} (h : sequencerTurn s = (effect i s).goto q) :
    awaiting sequencerTurn s = onNext (fun t => t.goto q) (exec i s) := by
  rw [exec_eq]
  exact awaiting_map h ⟨rfl, rfl⟩ (fun _ => rfl) fun _ _ => rfl

/-- The scan turn is `SCAN` without its result. -/
theorem awaiting_turn_of_scan {s : State} (h : s.seq = .scan) :
    awaiting sequencerTurn s = onNext (fun t => (t.goto .consume).answer s.result) (exec .scan s) := by
  have hresult : (scan s).result = s.result := congrArg Outer.result (scan_outer s)
  have hturn : sequencerTurn s = ((effect .scan s).goto .consume).answer s.result := by
    rw [sequencerTurn_of_scan h, effect, ← hresult]
    rfl
  rw [exec_eq]
  exact awaiting_map hturn ⟨rfl, rfl⟩ (fun _ => rfl) fun _ _ => rfl

/-- A drain turn is `POP` without its result, and `SEND_KEY` of the character where there is one. -/
theorem awaiting_turn_of_drain {s t : State} {ch : Byte} (h : s.seq = .drain) (hpop : exec .pop s = .next t)
    (hch : t.result = .char ch) :
    (ch = 0#8 → awaiting sequencerTurn s = .next ((t.goto .scan).answer s.result)) ∧
    (ch ≠ 0#8 → awaiting sequencerTurn s = exec (.sendKey ch) (t.answer s.result)) := by
  obtain rfl : (pop s).answer (.char (popChar s)) = t := Host.Outcome.next.inj hpop
  obtain rfl : popChar s = ch := CmdResult.char.inj hch
  have hresult : (pop s).result = s.result := congrArg Outer.result (pop_outer s)
  refine ⟨fun hz => ?_, fun hne => ?_⟩
  · have hturn := sequencerTurn_of_drain_zero h hz
    rw [awaiting_of_no_hold (evs := []) (by simp [hturn]) rfl (by simp [hturn]), hturn, ← hresult]
    rfl
  · rw [exec_eq, ← hresult, answer_answer_self]
    have hturn := sequencerTurn_of_drain_char h hne
    have hsame := awaiting_map (f := id) (s := pop s) hturn ⟨(pop_trace s).symm, (pop_ticks s).symm⟩
      (fun _ => rfl) fun _ _ => rfl
    rwa [onNext_id] at hsame

/-- Settles O7, one lemma per row of the table of `10_state.md` R26. -/
theorem stepRunsTheSequencer : Obligations.StepRunsTheSequencer := by
  intro s hrst hcmds
  rw [step_of_sequencer hrst hcmds]
  exact ⟨fun h => awaiting_turn_of_goto (sequencerTurn_of_bootDelay h),
    fun h => awaiting_turn_of_goto (sequencerTurn_of_bootSend h),
    awaiting_turn_of_scan,
    fun h => awaiting_turn_of_goto (sequencerTurn_of_consume h),
    fun h _ _ hpop hch => awaiting_turn_of_drain h hpop hch⟩

/-! What holds of each sequencer state. -/

/-- `CONSUME` from an empty ring leaves at most the one character it pushed. -/
theorem consume_unread_le {s : State} (h : s.head = s.tail) : (consume s).unread ≤ 1 := by
  have hu := s.unread_eq_zero.mpr h
  obtain ⟨-, he⟩ | ⟨-, -, he⟩ | ⟨-, -, he⟩ := consume_cases s <;> rw [he]
  · exact hu.trans_le zero_le_one
  · exact hu.trans_le zero_le_one
  · have hpush := push_unread (ch := s.khChar) (s := s) (by omega)
    rw [hu] at hpush
    exact hpush.le

/-- `POP` of a ring with at most one character leaves it empty. -/
theorem pop_empties {s : State} (h : s.unread ≤ 1) : (pop s).head = (pop s).tail := by
  by_cases he : s.head = s.tail
  · rwa [pop_of_empty he]
  · have := pop_unread he
    exact (pop s).unread_eq_zero.mp (by omega)

theorem sequencerTurn_keeps_inv {s : State} (h : s.SequencerInv) : (sequencerTurn s).SequencerInv := by
  unfold State.SequencerInv at h
  cases hq : s.seq <;> simp only [hq] at h
  case bootDelay =>
    rw [sequencerTurn_of_bootDelay hq, effect, delay_bootDel]
    exact h
  case bootSend =>
    rw [sequencerTurn_of_bootSend hq, effect, sendKey_eq]
    exact h
  case scan =>
    rw [sequencerTurn_of_scan hq, scan_frame]
    exact h.2
  case consume =>
    have hidle : (consume s).keyHit = false := by rw [consume_frame]
    rw [sequencerTurn_of_consume hq]
    exact ⟨hidle, consume_unread_le h⟩
  case drain =>
    obtain ⟨hidle, hone⟩ := h
    have hkey : (pop s).keyHit = false := by rw [pop_eq]; exact hidle
    have hempty := pop_empties hone
    by_cases hc : popChar s = 0#8
    · rw [sequencerTurn_of_drain_zero hq hc]
      exact ⟨hkey, hempty⟩
    · have hseq : (pop s).seq = .drain := by rw [pop_eq]; exact hq
      have hunread : (pop s).unread ≤ 1 := by rw [(pop s).unread_eq_zero.mpr hempty]; omega
      rw [sequencerTurn_of_drain_char hq hc, effect, sendKey_eq]
      simp only [State.SequencerInv, hseq]
      exact ⟨hkey, hunread⟩

/-- Settles O51: with no command word a step is a sequencer's turn, or a reset, which goes back to `S_BOOT_DELAY`. -/
theorem sequencerKeepsItsInvariant : Obligations.SequencerKeepsItsInvariant := by
  intro s t hcmds hinv hstep
  obtain ⟨-, w, rest, i, hsome, -, -⟩ | ⟨-, -, hturn⟩ | ⟨n, -, rfl⟩ := step_cases hstep
  · rw [hcmds] at hsome
    cases hsome
  · have hkept : (sequencerTurn s).cmds = s.cmds := congrArg Env.cmds (sequencerTurn_env s)
    rw [awaiting_next hturn]
    exact ⟨sequencerTurn_keeps_inv hinv, hkept.trans hcmds⟩
  · exact ⟨⟨rfl, rfl⟩, congrArg List.tail hcmds⟩

end Sys2Proof.Machine
end

section
/-! SUPPORT. Who writes each register (`10_state.md` R12 to R20, R29). -/

namespace Sys2Proof.Machine

/-- From `s` to `t` the operation `i` has written at most the fields of the parts it runs. -/
def OnlyWriters (i : Instr) (s t : State) : Prop :=
  (i.scans = false → t.shift = s.shift ∧ t.shiftLock = s.shiftLock ∧ t.ctrl = s.ctrl ∧ t.func = s.func ∧
    t.khCode = s.khCode ∧ t.khChar = s.khChar ∧ t.khRow = s.khRow ∧ t.khCol = s.khCol ∧
    t.rowN = s.rowN ∧ t.scanRet = s.scanRet ∧ t.rowIdx = s.rowIdx ∧ t.colIdx = s.colIdx ∧
    t.cols = s.cols ∧ t.freeCtr = s.freeCtr) ∧
  (i.scans = false → i.consumes = false → t.keyHit = s.keyHit) ∧
  (i.pushes = false → t.tail = s.tail) ∧
  (i.pops = false → t.head = s.head) ∧
  (i.pushes = false → i.pops = false → t.buf = s.buf) ∧
  (i.sendsByte = false → t.txSr = s.txSr ∧ t.bitIdx = s.bitIdx) ∧
  (i.drivesLines = false → t.data = s.data ∧ t.clock = s.clock) ∧
  (i.delays = false → t.dlyCnt = s.dlyCnt ∧ t.ticks = s.ticks) ∧
  (i.sequences = false → t.seq = s.seq) ∧
  (i.returns = false → t.result = s.result) ∧
  t.params = s.params ∧ t.cmds = s.cmds ∧ t.rst = s.rst ∧ t.dataIn = s.dataIn ∧ t.clkIn = s.clkIn

/-- An operation without a delay has its effect at once. -/
theorem exec_of_not_delays {i : Instr} (h : i.delays = false) (s : State) : exec i s = .next (effect i s) := by
  cases i with
  | keycode r c => rfl
  | resolve code sh ct fn => rfl
  | scan => rfl
  | push ch => rfl
  | pop => rfl
  | _ => cases h

/-- `DELAY` writes its counter and the trace. -/
theorem delay_frame (ms : BitVec 16) (s : State) :
    delay ms s = { s with dlyCnt := (delay ms s).dlyCnt, trace := (delay ms s).trace } := by
  by_cases h : ms = 0#16
  · rw [h]
    rfl
  · rw [delay_of_ne h]

/-- Each operation in closed form: the one record update shows the fields it writes, and the others stay. -/
theorem effect_onlyWriters (i : Instr) (s : State) : OnlyWriters i s (effect i s) := by
  unfold OnlyWriters
  cases i with
  | delay ms =>
    rw [effect, delay_frame]
    simp [Instr.delays]
  | keycode r c => simp [effect, Instr.returns]
  | resolve code sh ct fn => simp [effect, Instr.returns]
  | scan =>
    simp only [effect]
    rw [scan_frame]
    simp [Instr.scans, Instr.returns]
  | consume =>
    rw [effect, consume_frame]
    simp [Instr.consumes, Instr.pushes, Instr.delays]
  | push ch =>
    rw [effect, push_eq]
    simp [Instr.pushes]
  | pop =>
    simp only [effect]
    rw [pop_eq]
    simp [Instr.pops, Instr.returns]
  | lineIdle =>
    rw [effect, lineIdle_eq]
    simp [Instr.drivesLines, Instr.delays]
  | sendStart =>
    rw [effect, sendStart_eq]
    simp [Instr.drivesLines, Instr.delays]
  | sendBit b =>
    rw [effect, sendBit_eq]
    simp [Instr.drivesLines, Instr.delays]
  | sendByte v =>
    rw [effect, sendByte_eq]
    simp [Instr.sendsByte, Instr.drivesLines, Instr.delays]
  | sendKey v =>
    rw [effect, sendKey_eq]
    simp [Instr.sendsByte, Instr.drivesLines, Instr.delays]
  | drain =>
    rw [effect, drain_frame_all]
    simp [Instr.pops, Instr.sendsByte, Instr.drivesLines, Instr.delays]
  | dispatch =>
    rw [effect, dispatch_eq, drain_frame_all, consume_frame, scan_frame]
    simp [Instr.scans, Instr.pushes, Instr.pops, Instr.sendsByte, Instr.drivesLines, Instr.delays, Instr.sequences]
  | boot =>
    rw [effect, boot_eq]
    simp [Instr.sendsByte, Instr.drivesLines, Instr.delays, Instr.sequences]

/-- An operation that delays may spend ticks. -/
theorem OnlyWriters.withTicks {i : Instr} {s t : State} (h : OnlyWriters i s t) (hd : i.delays = true)
    (k : TickSource) : OnlyWriters i s { t with ticks := k } := by
  obtain ⟨hscan, hhit, htail, hhead, hbuf, htx, hlines, -, hrest⟩ := h
  exact ⟨hscan, hhit, htail, hhead, hbuf, htx, hlines, fun hnot => by simp [hd] at hnot, hrest⟩

/-- Settles O52: an operation that delays writes what its effect does and the ticks, any other its effect alone. -/
theorem registersHaveOnlyTheirWriters : Obligations.RegistersHaveOnlyTheirWriters := by
  intro i s t h
  have hwriters := effect_onlyWriters i s
  show OnlyWriters i s t
  obtain hd | hd := Bool.eq_false_or_eq_true i.delays
  · rw [exec_next h]
    exact hwriters.withTicks hd _
  · obtain rfl : effect i s = t := Host.Outcome.next.inj ((exec_of_not_delays hd s).symm.trans h)
    exact hwriters

/-! Shift-lock (`10_state.md` R19). -/

theorem scan_keeps_shiftLock {s : State} (h : s.shiftLock = true) : (scan s).shiftLock = true := by
  cases hk : s.keyHit with
  | false =>
    obtain ⟨-, -, -, hlock, -⟩ := scanPass_outcome hk rfl
    rw [scan_of_idle hk, hlock, h, Bool.true_or]
  | true => rwa [scan_of_pending hk]

/-- Of the two operations that scan, neither takes shift-lock away; the others do not write it. -/
theorem effect_keeps_shiftLock (i : Instr) {s : State} (h : s.shiftLock = true) : (effect i s).shiftLock = true := by
  cases hscans : i.scans with
  | false =>
    obtain ⟨hkept, -⟩ := effect_onlyWriters i s
    obtain ⟨-, hlock, -⟩ := hkept hscans
    rw [hlock, h]
  | true =>
    cases i with
    | scan => exact scan_keeps_shiftLock h
    | dispatch =>
      rw [effect, dispatch_eq, drain_frame_all, consume_frame]
      exact scan_keeps_shiftLock h
    | _ => cases hscans

theorem sequencerTurn_keeps_shiftLock {s : State} (h : s.shiftLock = true) :
    (sequencerTurn s).shiftLock = true := by
  cases hq : s.seq with
  | bootDelay =>
    rw [sequencerTurn_of_bootDelay hq]
    exact effect_keeps_shiftLock _ h
  | bootSend =>
    rw [sequencerTurn_of_bootSend hq]
    exact effect_keeps_shiftLock _ h
  | scan =>
    rw [sequencerTurn_of_scan hq]
    exact scan_keeps_shiftLock h
  | consume =>
    rw [sequencerTurn_of_consume hq]
    exact effect_keeps_shiftLock _ h
  | drain =>
    have hpop : (pop s).shiftLock = true := by rw [pop_eq]; exact h
    by_cases hc : popChar s = 0#8
    · rw [sequencerTurn_of_drain_zero hq hc]
      exact hpop
    · rw [sequencerTurn_of_drain_char hq hc]
      exact effect_keeps_shiftLock _ hpop

/-- Settles O53: no operation takes shift-lock away, and reset does. -/
theorem onlyResetClearsShiftLock : Obligations.OnlyResetClearsShiftLock := by
  intro s t hlock hstep
  obtain ⟨hrst, w, rest, i, -, -, hexec⟩ | ⟨hrst, -, hturn⟩ | ⟨n, hrst, rfl⟩ := step_cases hstep
  · rw [exec_next hexec]
    exact iff_of_true (effect_keeps_shiftLock i hlock) hrst
  · rw [awaiting_next hturn]
    exact iff_of_true (sequencerTurn_keeps_shiftLock hlock) hrst
  · refine iff_of_false ?_ (by simp [hrst])
    simp [resetDuring, State.applyReset]

end Sys2Proof.Machine
end

section
/-! SUPPORT. The pins of the serial lines (`20_memory.md` R47). -/

namespace Sys2Proof.Machine

/-! What each pin carries for each level of its line. -/

theorem dataOutN_of_high {s : State} (h : s.data = .high) : s.dataOutN = 0#1 := congrArg pinOf h
theorem dataOutN_of_low {s : State} (h : s.data = .low) : s.dataOutN = 1#1 := congrArg pinOf h
theorem clkOutN_of_high {s : State} (h : s.clock = .high) : s.clkOutN = 0#1 := congrArg pinOf h
theorem clkOutN_of_low {s : State} (h : s.clock = .low) : s.clkOutN = 1#1 := congrArg pinOf h

/-- The pin of a line that carries a bit is at the bit's inverse. -/
theorem pinOf_levelOf (b : Bool) : pinOf (levelOf b) = if b = true then 0#1 else 1#1 := by cases b <;> rfl

/-- A completed frame leaves bit 0 on the data line and the clock LOW. -/
theorem exec_sendKey_lines {v : Byte} {s t : State} (h : exec (.sendKey v) s = .next t) :
    t.data = levelOf (v.getLsbD 0) ∧ t.clock = .low := by
  rw [exec_next h, effect, sendKey_eq]
  exact ⟨rfl, rfl⟩

/-- Settles O32: the pins are a function of the lines alone, and a frame rests with its last bit and a LOW clock. -/
theorem pinsCarryTheInverse : Obligations.PinsCarryTheInverse := by
  refine ⟨fun s => ⟨dataOutN_of_high, dataOutN_of_low, clkOutN_of_high, clkOutN_of_low⟩, fun s t v h => ?_⟩
  obtain ⟨hdata, hclock⟩ := exec_sendKey_lines h
  exact ⟨clkOutN_of_low hclock, by rw [State.dataOutN, hdata, pinOf_levelOf]⟩

end Sys2Proof.Machine
end

section
/-! SUPPORT. The command word as a whole (`30_encoding.md` R76 to R78): the decoder is the opcode map, row by row, and the
encoder is its inverse. -/

namespace Sys2Proof

/-- The operation the `op` of a word names, its operands read from `arg` whatever the fixed bits are; none for `op` = 15. -/
def candidate (w : CmdWord) : Option Instr :=
  match (opField w).toNat with
  | 0 => some (.delay (w.extractLsb' 0 16))
  | 1 => some (.keycode (w.extractLsb' 3 3) (w.extractLsb' 0 3))
  | 2 => some (.resolve (w.extractLsb' 0 6) (w.getLsbD 8) (w.getLsbD 9) (w.getLsbD 10))
  | 3 => some .scan
  | 4 => some .consume
  | 5 => some (.push (w.extractLsb' 0 8))
  | 6 => some .pop
  | 7 => some .lineIdle
  | 8 => some .sendStart
  | 9 => some (.sendBit (w.getLsbD 0))
  | 10 => some (.sendByte (w.extractLsb' 0 8))
  | 11 => some (.sendKey (w.extractLsb' 0 8))
  | 12 => some .drain
  | 13 => some .dispatch
  | 14 => some .boot
  | _ => none

/-- The decoder names the candidate where the candidate's own row of the opcode map has its fixed bits. -/
theorem decode_eq (w : CmdWord) :
    decode w =
      match candidate w with
      | some i => whenFixed w i.row.mask i.row.pattern i
      | none => .error .reservedOp := by
  unfold decode candidate
  have hop := (opField w).isLt
  generalize (opField w).toNat = op at hop
  interval_cases op <;> rfl

theorem OpcodeRow.selects_iff {row : OpcodeRow} {w : CmdWord} : row.selects w = true ↔ w &&& row.mask = row.pattern :=
  beq_iff_eq

theorem decode_eq_ok_iff {w : CmdWord} {i : Instr} :
    decode w = .ok i ↔ candidate w = some i ∧ i.row.selects w = true := by
  rw [decode_eq, OpcodeRow.selects_iff]
  cases candidate w with
  | none => simp
  | some j =>
    simp only [whenFixed_ok, Option.some.injEq]
    constructor
    · rintro ⟨h, rfl⟩; exact ⟨rfl, h⟩
    · rintro ⟨rfl, h⟩; exact ⟨h, rfl⟩

/-! Rows. -/

/-- The row of the candidate is the row whose place in the opcode map is `op`. -/
theorem candidate_row (w : CmdWord) : (candidate w).map Instr.row = opcodeTable[(opField w).toNat]? := by
  unfold candidate
  have hop := (opField w).isLt
  generalize (opField w).toNat = op at hop
  interval_cases op <;> rfl

theorem opcodeTable_opFields :
    ∀ row ∈ opcodeTable, opField row.mask = 15#4 ∧ opcodeTable[(opField row.pattern).toNat]? = some row := by
  decide

theorem opField_and (w m : CmdWord) : opField (w &&& m) = opField w &&& opField m :=
  BitVec.extractLsb'_and

/-- A row of the opcode map selects words of its own `op` only. -/
theorem opField_of_selects {row : OpcodeRow} {w : CmdWord} (hrow : row ∈ opcodeTable) (h : row.selects w = true) :
    opField w = opField row.pattern := by
  obtain ⟨hmask, -⟩ := opcodeTable_opFields row hrow
  rw [← OpcodeRow.selects_iff.mp h, opField_and, hmask]
  exact (BitVec.and_allOnes (x := opField w)).symm

/-- The row that selects a word is the row of the word's candidate. -/
theorem candidate_row_of_selects {row : OpcodeRow} {w : CmdWord} (hrow : row ∈ opcodeTable)
    (h : row.selects w = true) : (candidate w).map Instr.row = some row := by
  obtain ⟨-, hplace⟩ := opcodeTable_opFields row hrow
  rw [candidate_row, opField_of_selects hrow h, hplace]

/-- A word without a candidate has `op` = 15. -/
theorem candidate_eq_none_iff {w : CmdWord} : candidate w = none ↔ opField w = 15#4 := by
  rw [← Option.map_eq_none_iff (f := Instr.row), candidate_row]
  generalize opField w = op
  decide +revert

theorem CmdWord.wellFormed_iff {w : CmdWord} :
    CmdWord.wellFormed w = true ↔ ∃ row ∈ opcodeTable, row.selects w = true := List.any_eq_true

/-- The word of every operation is selected by the operation's own row. -/
theorem encodedAsListed (i : Instr) : Laws.EncodedAsListed.Statement i := by
  cases i with
  | delay ms => exact Laws.EncodedAsListed.delay ms
  | keycode r c => exact Laws.EncodedAsListed.keycode r c
  | resolve code s c f => exact Laws.EncodedAsListed.resolve code s c f
  | scan => exact Laws.EncodedAsListed.scan
  | consume => exact Laws.EncodedAsListed.consume
  | push ch => exact Laws.EncodedAsListed.push ch
  | pop => exact Laws.EncodedAsListed.pop
  | lineIdle => exact Laws.EncodedAsListed.lineIdle
  | sendStart => exact Laws.EncodedAsListed.sendStart
  | sendBit b => exact Laws.EncodedAsListed.sendBit b
  | sendByte v => exact Laws.EncodedAsListed.sendByte v
  | sendKey v => exact Laws.EncodedAsListed.sendKey v
  | drain => exact Laws.EncodedAsListed.drain
  | dispatch => exact Laws.EncodedAsListed.dispatch
  | boot => exact Laws.EncodedAsListed.boot

theorem row_mem_opcodeTable (i : Instr) : i.row ∈ opcodeTable := (encodedAsListed i).1
theorem row_selects_encode (i : Instr) : i.row.selects (encode i) = true := (encodedAsListed i).2

/-- A word some row selects decodes. -/
theorem decode_of_selects {row : OpcodeRow} {w : CmdWord} (hrow : row ∈ opcodeTable) (h : row.selects w = true) :
    ∃ i, decode w = .ok i := by
  obtain ⟨i, hi, rfl⟩ := Option.map_eq_some_iff.mp (candidate_row_of_selects hrow h)
  exact ⟨i, decode_eq_ok_iff.mpr ⟨hi, h⟩⟩

/-- The one row that selects a word that decodes is the row of its operation. -/
theorem selects_iff_of_decode {w : CmdWord} {i : Instr} (h : decode w = .ok i) {row : OpcodeRow}
    (hrow : row ∈ opcodeTable) : row.selects w = true ↔ row = i.row := by
  obtain ⟨hi, hsel⟩ := decode_eq_ok_iff.mp h
  constructor
  · intro hs
    have hown := candidate_row_of_selects hrow hs
    rw [hi] at hown
    exact (Option.some.inj hown).symm
  · rintro rfl
    exact hsel

theorem decode_ok_iff_wellFormed {w : CmdWord} : (∃ i, decode w = .ok i) ↔ CmdWord.wellFormed w = true := by
  rw [CmdWord.wellFormed_iff]
  constructor
  · rintro ⟨i, h⟩
    exact ⟨i.row, row_mem_opcodeTable i, (decode_eq_ok_iff.mp h).2⟩
  · rintro ⟨row, hrow, hsel⟩
    exact decode_of_selects hrow hsel

/-- Why a word no row selects is no operation: its `op` is 15, or a fixed bit of the row of its `op` is not as listed. -/
theorem decode_of_not_wellFormed {w : CmdWord} (h : CmdWord.wellFormed w = false) :
    decode w = .error (if opField w = 15#4 then .reservedOp else .reservedArgBits) := by
  rw [decode_eq]
  cases hc : candidate w with
  | none => rw [if_pos (candidate_eq_none_iff.mp hc)]
  | some i =>
    have hop : opField w ≠ 15#4 := fun h15 => by simp [candidate_eq_none_iff.mpr h15] at hc
    have hsel : ¬ i.row.selects w = true := fun hs =>
      absurd (CmdWord.wellFormed_iff.mpr ⟨i.row, row_mem_opcodeTable i, hs⟩) (by simp [h])
    rw [if_neg hop]
    exact whenFixed_error.mpr ⟨fun hs => hsel (OpcodeRow.selects_iff.mpr hs), rfl⟩

/-! The operands. -/

/-- An operand is read back from its place in `arg`. -/
@[simp] theorem extractLsb'_argField {n : Nat} (lo : Nat) (v : BitVec n) (h : lo + n ≤ 16) :
    (argField lo v).extractLsb' lo n = v := by
  refine BitVec.eq_of_getLsbD_eq fun k hk => ?_
  rw [BitVec.getLsbD_extractLsb', getLsbD_argField]
  simp [hk, show lo + k < 16 by omega]

/-- Elsewhere in `arg` an operand is 0. -/
@[simp] theorem extractLsb'_argField_of_disjoint {n : Nat} (lo : Nat) (v : BitVec n) {lo' len : Nat}
    (h : lo' + len ≤ lo ∨ lo + n ≤ lo') : (argField lo v).extractLsb' lo' len = 0#len := by
  refine BitVec.eq_of_getLsbD_eq fun k hk => ?_
  rw [BitVec.getLsbD_extractLsb', getLsbD_argField, BitVec.getLsbD_zero]
  obtain hbelow | habove := h
  · simp [show lo' + k < lo by omega]
  · simp [BitVec.getLsbD_of_ge v (lo' + k - lo) (by omega)]

/-- The operands of every operation are read back from its word. -/
theorem candidate_encode (i : Instr) : candidate (encode i) = some i := by
  cases i with
  | delay ms => simp [candidate, encode, extractLsb'_wordOf]
  | keycode r c => simp [candidate, encode, extractLsb'_wordOf, BitVec.extractLsb'_or]
  | resolve code s c f => simp [candidate, encode, extractLsb'_wordOf, BitVec.extractLsb'_or, argBit]
  | push ch => simp [candidate, encode, extractLsb'_wordOf]
  | sendBit b => simp [candidate, encode]
  | sendByte v => simp [candidate, encode, extractLsb'_wordOf]
  | sendKey v => simp [candidate, encode, extractLsb'_wordOf]
  | _ => rfl

theorem decode_encode (i : Instr) : decode (encode i) = .ok i :=
  decode_eq_ok_iff.mpr ⟨candidate_encode i, row_selects_encode i⟩

/-- Two words that one row selects differ at most in the bits the row leaves to the operands. -/
theorem eq_of_selects {row : OpcodeRow} {w w' : CmdWord} (h : row.selects w = true) (h' : row.selects w' = true)
    (hoperands : ∀ k : Fin 20, row.mask.getLsbD k = false → w.getLsbD k = w'.getLsbD k) : w = w' := by
  have hfixed : w &&& row.mask = w' &&& row.mask :=
    (OpcodeRow.selects_iff.mp h).trans (OpcodeRow.selects_iff.mp h').symm
  refine BitVec.eq_of_getLsbD_eq fun k hk => ?_
  cases hm : row.mask.getLsbD k with
  | false => exact hoperands ⟨k, hk⟩ hm
  | true => simpa [hm] using congrArg (fun v : CmdWord => v.getLsbD k) hfixed

/-- The operand bits of a word are those of its candidate's word. -/
theorem candidate_operandBits {w : CmdWord} {i : Instr} (h : candidate w = some i) (k : Fin 20)
    (hk : i.row.mask.getLsbD k = false) : (encode i).getLsbD k = w.getLsbD k := by
  unfold candidate at h
  split at h
  case h_16 => cases h
  all_goals
    cases h
    fin_cases k <;> simp [Instr.row, encode] at hk ⊢

theorem encode_of_decode {w : CmdWord} {i : Instr} (h : decode w = .ok i) : encode i = w := by
  obtain ⟨hi, hsel⟩ := decode_eq_ok_iff.mp h
  exact eq_of_selects (row_selects_encode i) hsel (candidate_operandBits hi)

/-! The statements. -/

/-- Settles O1: the operation's row selects its word, and the operands are read back from where they were put. -/
theorem decodeOfEncodeIsTheOperation : Obligations.DecodeOfEncodeIsTheOperation := decode_encode

/-- Settles O2: the word and the encoding are selected by one row and have the same operand bits. -/
theorem encodeOfDecodeIsTheWord : Obligations.EncodeOfDecodeIsTheWord := fun _ _ => encode_of_decode

/-- Settles O3: a row selects words of its own `op` only, so it is the row of the operation. -/
theorem decodeFollowsTheOpcodeMap : Obligations.DecodeFollowsTheOpcodeMap := fun _ =>
  ⟨decode_ok_iff_wellFormed, fun _ h _ hrow => selects_iff_of_decode h hrow⟩

/-- Settles O4: each word is the encoding of its operation. -/
theorem workedWordsDecode : Obligations.WorkedWordsDecode :=
  ⟨decode_encode (.delay 4#16), decode_encode (.keycode 2#3 7#3), decode_encode (.resolve 24#6 false true false),
    decode_encode .scan, decode_encode (.push 0x41#8), decode_encode .pop, decode_encode (.sendBit true),
    decode_encode (.sendKey 0x41#8)⟩

end Sys2Proof
end

section
/-! SUPPORT. What a step does with the next command word (`30_encoding.md` R76, R78). -/

namespace Sys2Proof.Machine

theorem step_of_no_operation {s : State} {w : CmdWord} {rest : List CmdWord} {e : DecodeError} (hr : s.rst = none)
    (hc : s.cmds = w :: rest) (hd : decode w = .error e) : step s = .refused (.noOperation w e) := by
  simp [step, hr, turn, hc, runCommand, hd]

/-- Settles O5: the decoder refuses the word, and so does the step. -/
theorem unselectedWordIsRefused : Obligations.UnselectedWordIsRefused := fun _ _ _ hr hc hw =>
  step_of_no_operation hr hc (decode_of_not_wellFormed hw)

/-- Settles O6: with no reset due, a step takes the next command word and runs what it decodes to. -/
theorem stepRunsTheDecodedCommand : Obligations.StepRunsTheDecodedCommand := fun _ _ _ _ => step_of_command

end Sys2Proof.Machine
end

section
/-! SUPPORT. Codes without a character (`30_encoding.md` R79, `41_keytable.md` R105). -/

namespace Sys2Proof.Machine

theorem charRowAt_of_gt {p : Params} {code : ScanCode} (h : 48 < code.toNat) : charRowAt p code = none :=
  dif_neg (by omega)

theorem charRowAt_of_lt {p : Params} {code : ScanCode} (h : code.toNat < 49) :
    charRowAt p code = p.chartab[(⟨code.toNat, h⟩ : Fin 49)] :=
  dif_pos h

theorem resolveChar_of_no_row {p : Params} {code : ScanCode} (h : charRowAt p code = none) (sh ct fn : Bool) :
    resolveChar p code sh ct fn = 0#8 := by
  simp only [resolveChar, h]

/-- The codes the spec lists as having no character are the rowless codes of the tables. -/
theorem listed_codes_are_rowless :
    ∀ code ∈ [0#6, 34#6, 44#6, 45#6, 46#6, 48#6], ∃ h : code.toNat < 49, (⟨code.toNat, h⟩ : Fin 49) ∈ rowlessCodes := by
  decide

/-- Settles O14: none of these codes has a row. -/
theorem unmappedCodesResolveToZero : Obligations.UnmappedCodesResolveToZero := by
  intro s code sh ct fn htables hcode
  have hrow : charRowAt s.params code = none := by
    obtain hlisted | habove := hcode
    · obtain ⟨hlt, hmem⟩ := listed_codes_are_rowless code hlisted
      obtain ⟨hrowless, -⟩ := tables_of_wellFormed htables
      rw [charRowAt_of_lt hlt, hrowless _ hmem]
    · exact charRowAt_of_gt habove
  rw [exec, execResolve, resolveChar_of_no_row hrow]

end Sys2Proof.Machine
end

section
/-! SUPPORT. Operations one after another (`30_encoding.md` R81): a sequence is one awaited effect, so an operation whose
effect is that of a sequence answers as the sequence does, stops included. -/

namespace Sys2Proof.Machine

/-- What operations leave one after another, the ticks they await apart. -/
def effectAll (is : List Instr) (s : State) : State := is.foldl (fun s i => effect i s) s

theorem effectAll_cons (i : Instr) (is : List Instr) (s : State) :
    effectAll (i :: is) s = effectAll is (effect i s) := rfl

theorem effectAll_trace (is : List Instr) (s : State) : ∃ evs, (effectAll is s).trace = s.trace ++ evs := by
  induction is generalizing s with
  | nil => exact ⟨[], (List.append_nil _).symm⟩
  | cons i is ih =>
    obtain ⟨evs, hfirst⟩ := effect_trace i s
    obtain ⟨evs', hrest⟩ := ih (effect i s)
    exact ⟨evs ++ evs', by rw [effectAll_cons, hrest, hfirst, List.append_assoc]⟩

theorem effectAll_withEnv (is : List Instr) (s : State) (e : Env) :
    effectAll is (s.withEnv e) = (effectAll is s).withEnv e := by
  induction is generalizing s with
  | nil => rfl
  | cons i is ih => rw [effectAll_cons, effect_withEnv, ih, effectAll_cons]

/-- The same state with another tick source. -/
def State.withTicks (s : State) (ticks : TickSource) : State := { s with ticks := ticks }

/-- What commutes with every change of the environment's fields commutes with spending ticks. -/
theorem commutes_withTicks {op : State → State} (hop : ∀ s e, op (s.withEnv e) = (op s).withEnv e) (s : State)
    (ticks : TickSource) : op (s.withTicks ticks) = (op s).withTicks ticks := by
  have hspent : op (s.withTicks ticks) = (op s).withEnv { s.env with ticks := ticks } :=
    hop s { s.env with ticks := ticks }
  rw [hspent, ← env_of_commutes hop s]
  rfl

section
variable {f g : State → State} {s : State} {evs evs' : List Event} (hf : (f s).trace = s.trace ++ evs)
  (hg : (g (f s)).trace = (f s).trace ++ evs')
include hf hg

/-- Two waits of which the first ends are the second, begun with the ticks the first left. -/
theorem awaiting_comp_of_supplied (hcomm : ∀ ticks, g ((f s).withTicks ticks) = (g (f s)).withTicks ticks)
    (hsup : s.ticks.supplies (holdTime evs) = true) :
    awaiting (fun s => g (f s)) s = awaiting g ((f s).withTicks (s.ticks.spend (holdTime evs))) := by
  have hboth : (g (f s)).trace = s.trace ++ (evs ++ evs') := by rw [hg, hf, List.append_assoc]
  have hsecond : (g ((f s).withTicks (s.ticks.spend (holdTime evs)))).trace = (f s).trace ++ evs' := by
    rw [hcomm]
    exact hg
  rw [awaiting_of_trace (op := fun s => g (f s)) hboth, awaiting_of_trace hsecond, hcomm, holdTime_append,
    TickSource.supplies_add, TickSource.spend_add, hsup, Bool.true_and]
  rfl

/-- Two waits of which the first never ends never end. -/
theorem awaiting_comp_of_starved (hsup : s.ticks.supplies (holdTime evs) = false) :
    awaiting (fun s => g (f s)) s = .fault .tickStopped := by
  have hboth : (g (f s)).trace = s.trace ++ (evs ++ evs') := by rw [hg, hf, List.append_assoc]
  rw [awaiting_of_trace (op := fun s => g (f s)) hboth, holdTime_append, TickSource.supplies_add, hsup, Bool.false_and,
    if_neg Bool.false_ne_true]

end

/-- Operations one after another are their effects one after another, awaited once. -/
theorem execAll_eq (is : List Instr) (s : State) : execAll is s = awaiting (effectAll is) s := by
  induction is generalizing s with
  | nil => exact (awaiting_of_no_hold (op := effectAll []) (List.append_nil _).symm rfl rfl).symm
  | cons i is ih =>
    obtain ⟨evs, hfirst⟩ := effect_trace i s
    obtain ⟨evs', hrest⟩ := effectAll_trace is (effect i s)
    have hsplit : effectAll (i :: is) = fun s => effectAll is (effect i s) := rfl
    rw [execAll, exec_eq, awaiting_of_trace hfirst, hsplit]
    cases hsup : s.ticks.supplies (holdTime evs) with
    | false => exact (awaiting_comp_of_starved hfirst hrest hsup).symm
    | true =>
      rw [awaiting_comp_of_supplied hfirst hrest (commutes_withTicks (effectAll_withEnv is) _) hsup]
      exact ih _

/-- An operation whose effect is that of a sequence, with other registers `f` written at the end, answers as the sequence
does, with those registers written. -/
theorem exec_of_expansion {i : Instr} {is : List Instr} {f : State → State} {s : State}
    (heffect : effect i s = f (effectAll is s)) (htrace : ∀ t, (f t).trace = t.trace)
    (hticks : ∀ t k, f { t with ticks := k } = { f t with ticks := k }) :
    exec i s = onNext f (execAll is s) := by
  rw [exec_eq, execAll_eq]
  exact awaiting_map heffect ⟨rfl, rfl⟩ htrace hticks

/-! The rows of R81. -/

/-- `SEND_BYTE v` (`44_transmitter.md` R166). -/
theorem exec_sendByte_eq (v : Byte) (s : State) :
    exec (.sendByte v) s =
      onNext (fun t => { t with txSr := v, bitIdx := 0#4 })
        (execAll (.sendStart :: (bitsMsbFirst v).map Instr.sendBit) s) := by
  refine exec_of_expansion ?_ (fun _ => rfl) fun _ _ => rfl
  simp [effectAll, effect, bitsMsbFirst, sendStart_eq, sendBit_eq, sendByte_eq, byteEvents]

/-- `SEND_KEY v` (`44_transmitter.md` R168). -/
theorem exec_sendKey_eq (v : Byte) (s : State) : exec (.sendKey v) s = execAll [.lineIdle, .sendByte v] s := by
  have h : exec (.sendKey v) s = onNext id (execAll [.lineIdle, .sendByte v] s) :=
    exec_of_expansion rfl (fun _ => rfl) fun _ _ => rfl
  rwa [onNext_id] at h

theorem consume_answer (s : State) (r : CmdResult) : consume (s.answer r) = (consume s).answer r := by
  rw [State.answer_eq, consume_withOuter, ← consume_outer]
  rfl

theorem drain_answer (s : State) (r : CmdResult) : drain (s.answer r) = (drain s).answer r := by
  rw [State.answer_eq, drain_withOuter, ← drain_outer]
  rfl

/-- A result handed on and taken back leaves the move of `seq` alone. -/
theorem answer_goto_answer_self (s : State) (q : Seq) (r : CmdResult) :
    ((s.answer r).goto q).answer s.result = s.goto q := rfl

/-- `DISPATCH` (`45_dispatch.md` R183): the result of its `SCAN` is not handed on. -/
theorem exec_dispatch_eq (s : State) :
    exec .dispatch s = onNext (fun t => (t.goto .scan).answer s.result) (execAll [.scan, .consume, .drain] s) := by
  refine exec_of_expansion ?_ (fun _ => rfl) fun _ _ => rfl
  have hresult : (drain (consume (scan s))).result = s.result := by
    rw [drain_frame_all, consume_frame, scan_frame]
  have hparts : effectAll [.scan, .consume, .drain] s =
      (drain (consume (scan s))).answer (.row (scan s).scanRet) := by
    rw [← drain_answer, ← consume_answer]
    rfl
  rw [hparts, ← hresult, answer_goto_answer_self, effect, dispatch_eq]

/-- `BOOT` (`45_dispatch.md` R185, the spec's decision D22). -/
theorem exec_boot_eq (s : State) :
    exec .boot s = onNext (fun t => t.goto .scan) (execAll [.delay 1000#16, .sendKey 0x00#8] s) := by
  refine exec_of_expansion ?_ (fun _ => rfl) fun _ _ => rfl
  have hparts : effectAll [.delay 1000#16, .sendKey 0x00#8] s = sendKey 0x00#8 (delay Config.bootDel s) := rfl
  rw [hparts, effect, boot_eq, sendKey_eq, delay_bootDel, List.append_assoc]
  rfl

/-- Settles O41, one lemma per row. -/
theorem compositesAreTheirExpansions : Obligations.CompositesAreTheirExpansions := by
  intro s t v
  refine ⟨fun h => ?_, fun h => ?_, fun h => ?_, fun h => ?_⟩
  · rw [exec_sendByte_eq]
    exact congrArg (onNext _) h
  · rw [exec_sendKey_eq, h]
  · rw [exec_dispatch_eq, h, onNext]
  · rw [exec_boot_eq, h, onNext]

end Sys2Proof.Machine
end

section
/-! SUPPORT. Operations that delay (`40_delay.md` R91, R92): `DELAY` with enough ticks and with too few, and the
transmitter with too few. -/

namespace Sys2Proof.Machine

/-- An operation waits for ever where fewer ticks arrive than its events hold. -/
theorem exec_starved {i : Instr} {s : State} {evs : List Event} {n : Nat}
    (hevents : (effect i s).trace = s.trace ++ evs) (hleft : s.ticks = .left n) (hfew : n < holdTime evs) :
    exec i s = .fault .tickStopped := by
  rw [exec_eq]
  exact awaiting_starved hevents rfl hleft hfew

/-! `DELAY`. -/

theorem delay_trace_of_ne {ms : BitVec 16} (h : ms ≠ 0#16) (s : State) :
    (delay ms s).trace = s.trace ++ [.hold ms.toNat] := by
  rw [delay_trace, if_neg h]

theorem exec_delay_zero (s : State) : exec (.delay 0#16) s = .next s :=
  awaiting_of_no_hold (op := delay 0#16) (delay_trace 0#16 s) rfl rfl

theorem exec_delay_supplied {ms : BitVec 16} {s : State} (h : ms ≠ 0#16) (hticks : s.ticks.supplies ms.toNat = true) :
    exec (.delay ms) s =
      .next { s with dlyCnt := 0#16, ticks := s.ticks.spend ms.toNat, trace := s.trace ++ [.hold ms.toNat] } := by
  have hheld : holdTime [.hold ms.toNat] = ms.toNat := rfl
  rw [exec_eq, effect, awaiting_supplied (delay_trace_of_ne h s) hheld hticks, delay_of_ne h]

/-- Only a delay other than 0 can lack ticks. -/
theorem exec_delay_starved {ms : BitVec 16} {s : State} {n : Nat} (hleft : s.ticks = .left n) (hfew : n < ms.toNat) :
    exec (.delay ms) s = .fault .tickStopped := by
  have hne : ms ≠ 0#16 := by
    rintro rfl
    exact Nat.not_lt_zero n hfew
  exact exec_starved (delay_trace_of_ne hne s) hleft hfew

/-- Settles O9: no wait for 0, else a wait that ends or one that does not. -/
theorem delayCountsItsTicks : Obligations.DelayCountsItsTicks := by
  intro s ms
  refine ⟨?_, exec_delay_supplied, fun _ => exec_delay_starved⟩
  rintro rfl
  exact exec_delay_zero s

/-! The transmitter: the events each operation appends. -/

theorem lineIdle_trace (s : State) : (lineIdle s).trace = s.trace ++ idleEvents := by rw [lineIdle_eq]
theorem sendStart_trace (s : State) : (sendStart s).trace = s.trace ++ startEvents := by rw [sendStart_eq]
theorem sendBit_trace (b : Bool) (s : State) : (sendBit b s).trace = s.trace ++ bitEvents b := by rw [sendBit_eq]
theorem sendByte_trace (v : Byte) (s : State) : (sendByte v s).trace = s.trace ++ byteEvents v := by rw [sendByte_eq]
theorem sendKey_trace (v : Byte) (s : State) : (sendKey v s).trace = s.trace ++ frameEvents v := by rw [sendKey_eq]

/-- Settles O30: the events of each operation hold the milliseconds of its bound. -/
theorem transmitterHangsWithoutTicks : Obligations.TransmitterHangsWithoutTicks := by
  intro s n b v hleft
  refine ⟨fun hfew => ?_, fun hfew => ⟨?_, ?_⟩, fun hfew => ?_, fun hfew => ?_⟩
  · exact exec_starved (lineIdle_trace s) hleft (by rwa [holdTime_idleEvents])
  · exact exec_starved (sendStart_trace s) hleft (by rwa [holdTime_startEvents])
  · exact exec_starved (sendBit_trace b s) hleft (by rwa [holdTime_bitEvents])
  · exact exec_starved (sendByte_trace v s) hleft (by rwa [holdTime_byteEvents])
  · exact exec_starved (sendKey_trace v s) hleft (by rwa [holdTime_frameEvents])

end Sys2Proof.Machine
end

section
/-! SUPPORT. The position table and character resolution (`41_keytable.md` R102, R105, R106): where `KEYCODE` looks, and
which entry of a row `RESOLVE` gives, one lemma per level of the precedence. -/

namespace Sys2Proof.Machine

/-! `KEYCODE`. -/

theorem exec_keycode (r c : LineIdx) (s : State) :
    exec (.keycode r c) s = .next (s.answer (.code (keymapAt s.params r c))) := rfl

/-- The row number is the upper three bits of the index (the spec's decision D32). -/
theorem keymapIndex_toNat (r c : LineIdx) : (keymapIndex r c).toNat = 8 * r.toNat + c.toNat := by
  rw [keymapIndex, BitVec.toNat_append, ← Nat.shiftLeft_add_eq_or_of_lt c.isLt, Nat.shiftLeft_eq, Nat.mul_comm]

/-- A scan code of the table fits the 6 bits it is returned in. -/
theorem keymapAt_toNat (p : Params) (r c : LineIdx) :
    (keymapAt p r c).toNat = (p.keymap[(keymapIndex r c).toNat]'(keymapIndex r c).isLt).val :=
  (BitVec.toNat_ofNat _ _).trans (Nat.mod_eq_of_lt (Nat.lt_trans (Fin.isLt _) (by decide)))

/-- Settles O10: the index is `8 * r + c`, and the entry is below 49 by its type. -/
theorem keycodeReadsThePositionTable : Obligations.KeycodeReadsThePositionTable := by
  intro s r c
  have hindex := keymapIndex_toNat r c
  have hvalue := keymapAt_toNat s.params r c
  refine ⟨hindex ▸ (keymapIndex r c).isLt, keymapAt s.params r c, exec_keycode r c s, ?_, ?_⟩
  · simpa only [hindex] using hvalue
  · rw [hvalue]
    exact Nat.le_of_lt_succ (Fin.isLt _)

/-! `RESOLVE`. -/

theorem exec_resolve (code : ScanCode) (sh ct fn : Bool) (s : State) :
    exec (.resolve code sh ct fn) s = .next (s.answer (.char (resolveChar s.params code sh ct fn))) := rfl

section
variable {p : Params} {code : ScanCode} {row : CharRow} (hrow : charRowAt p code = some row)
include hrow

theorem resolveChar_of_ctrl {v : Byte} (hctrl : row.ctrl = some v) (sh fn : Bool) :
    resolveChar p code sh true fn = v := by
  simp [resolveChar, hrow, hctrl]

theorem resolveChar_of_func {v : Byte} {ct : Bool} (hctrl : ¬ (ct = true ∧ row.ctrl.isSome = true))
    (hfunc : row.func = some v) (sh : Bool) : resolveChar p code sh ct true = v := by
  have hpassed : (if ct then row.ctrl else none) = none := by simpa using hctrl
  simp [resolveChar, hrow, hpassed, hfunc]

theorem resolveChar_of_neither {ct fn : Bool} (hctrl : ¬ (ct = true ∧ row.ctrl.isSome = true))
    (hfunc : ¬ (fn = true ∧ row.func.isSome = true)) (sh : Bool) :
    resolveChar p code sh ct fn = if sh then row.shifted else row.base := by
  have hctrl' : (if ct then row.ctrl else none) = none := by simpa using hctrl
  have hfunc' : (if fn then row.func else none) = none := by simpa using hfunc
  simp only [resolveChar, hrow, hctrl', hfunc']

theorem resolveChar_unmodified (sh : Bool) :
    resolveChar p code sh false false = if sh then row.shifted else row.base :=
  resolveChar_of_neither hrow (by simp) (by simp) sh

end

theorem resolveChar_of_all_entries {p : Params} {code : ScanCode} {base shifted ctrl func : Byte}
    (hrow : charRowAt p code = some ⟨base, shifted, some ctrl, some func⟩) (sh ct fn : Bool) :
    resolveChar p code sh ct fn = if ct then ctrl else if fn then func else if sh then shifted else base := by
  cases ct with
  | true => exact resolveChar_of_ctrl hrow rfl sh fn
  | false =>
    cases fn with
    | true => exact resolveChar_of_func hrow (by simp) rfl sh
    | false => exact resolveChar_unmodified hrow sh

/-- Settles O11, by the levels of the precedence. -/
theorem resolveFollowsThePrecedence : Obligations.ResolveFollowsThePrecedence := by
  intro s code sh ct fn
  refine ⟨_, exec_resolve code sh ct fn s, fun habove => ?_, fun hlt habsent => ?_, fun hlt row hentry => ?_⟩
  · exact resolveChar_of_no_row (charRowAt_of_gt habove) sh ct fn
  · exact resolveChar_of_no_row ((charRowAt_of_lt hlt).trans habsent) sh ct fn
  have hrow : charRowAt s.params code = some row := (charRowAt_of_lt hlt).trans hentry
  refine ⟨?_, fun hctrl => ⟨?_, fun hfunc => resolveChar_of_neither hrow hctrl hfunc sh⟩⟩
  · rintro rfl hsome
    obtain ⟨v, hv⟩ := Option.isSome_iff_exists.mp hsome
    rw [resolveChar_of_ctrl hrow hv, hv]
  · rintro rfl hsome
    obtain ⟨v, hv⟩ := Option.isSome_iff_exists.mp hsome
    rw [resolveChar_of_func hrow hctrl hv, hv]

/-! The rows every table has (`41_keytable.md` R104). -/

section
variable {p : Params} (h : p.wellFormed = true)
include h

theorem resolveChar_code24 (sh ct fn : Bool) :
    resolveChar p 24#6 sh ct fn = if ct then 19#8 else if fn then 129#8 else if sh then 0x53#8 else 0x73#8 := by
  obtain ⟨-, -, hrow, -⟩ := tables_of_wellFormed h
  exact resolveChar_of_all_entries (code := 24#6) hrow sh ct fn

theorem resolveChar_code1_unmodified (sh : Bool) :
    resolveChar p 1#6 sh false false = if sh then 0x21#8 else 0x31#8 := by
  obtain ⟨-, ⟨row, hrow, hbase, hshifted⟩, -, -⟩ := tables_of_wellFormed h
  rw [resolveChar_unmodified (code := 1#6) hrow, hbase, hshifted]

theorem resolveChar_code47_base : resolveChar p 47#6 false false false = 0x20#8 := by
  obtain ⟨-, -, -, row, hrow, hbase⟩ := tables_of_wellFormed h
  exact (resolveChar_unmodified (code := 47#6) hrow false).trans hbase

end

/-- Settles O12, by the row with all four entries; that of code 24 is one. -/
theorem controlOverFunctionOverShiftOverBase : Obligations.ControlOverFunctionOverShiftOverBase := by
  refine ⟨fun s code hlt base shifted ctrl func sh ct fn hentry => ?_, fun s sh fn htables => ?_⟩
  · rw [exec_resolve, resolveChar_of_all_entries ((charRowAt_of_lt hlt).trans hentry)]
  · rw [exec_resolve, resolveChar_code24 htables, if_pos rfl]

/-- Settles O13, by the rows of codes 24, 1 and 47. -/
theorem resolveGivesTheFixedCharacters : Obligations.ResolveGivesTheFixedCharacters := by
  intro s htables
  simp [exec_resolve, resolveChar_code24 htables, resolveChar_code1_unmodified htables, resolveChar_code47_base htables]

end Sys2Proof.Machine
end

section
/-! SUPPORT. `SCAN` and `CONSUME` as operations (`42_scanner.md`): what `exec` answers in each state of the debounce FSM,
and how the key-hit flag moves. -/

namespace Sys2Proof.Machine

/-! `SCAN`. The proofs generalize the state a pass leaves once its facts are stated, so that no check unfolds
the pass. -/

theorem exec_scan_of_pending {s : State} (h : s.keyHit = true) :
    exec .scan s = .next { s with scanRet := 0#4, result := .row 0#4 } := by
  rw [exec, execScan, scan_of_pending h]
  rfl

theorem exec_scan_of_idle {s : State} (h : s.keyHit = false) :
    exec .scan s = .next ((scanPass s).answer (.row (scanPass s).scanRet)) := by
  rw [exec, execScan, scan_of_idle h]

/-- Settles O15: in state Pending there is no pass. -/
theorem scanWhilePendingIsNoOp : Obligations.ScanWhilePendingIsNoOp := fun _ => exec_scan_of_pending

/-- Settles O16: the record update of a pass shows the ports it drives, and the fields it writes. -/
theorem scanDrivesAndSamplesEveryRowOnce : Obligations.ScanDrivesAndSamplesEveryRowOnce := by
  intro s hidle
  have hexec := exec_scan_of_idle hidle
  have hframe := scanPass_frame s
  generalize scanPass s = t at hexec hframe
  rw [hframe] at hexec
  exact ⟨_, hexec, rfl, rfl, rfl, rfl, rfl⟩

/-- Settles O17: the flags and the result are those of the presses, the record that of the last key or the old one. -/
theorem scanLatchesTheLastKey : Obligations.ScanLatchesTheLastKey := by
  rintro s ps hidle rfl
  obtain ⟨hshift, hctrl, hfunc, hlock, hret, hhit⟩ := scanPass_outcome hidle rfl
  have hexec := exec_scan_of_idle hidle
  have hlatched := fun k => scanPass_record (s := s) (k := k)
  have hkept := scanPass_no_record hidle
  generalize scanPass s = t at *
  exact ⟨_, hexec, hshift, hctrl, hfunc, hlock, hhit, hlatched, hkept, hret, congrArg CmdResult.row hret⟩

/-- Settles O18, by the character a pass gives its last key. -/
theorem scanResolvesAtTheResolvePoint : Obligations.ScanResolvesAtTheResolvePoint := fun _ _ hidle hlast =>
  ⟨_, exec_scan_of_idle hidle, (State.answer_khChar _ _).trans (scanPass_char hlast)⟩

/-! `CONSUME`. -/

theorem consume_trace_of_no_char {s : State} (h : s.keyHit = true → s.khChar = 0#8) :
    (consume s).trace = s.trace ++ [] := by
  rw [consume_trace, if_neg]
  simpa using h

/-- Without a character to push `CONSUME` awaits no tick. -/
theorem exec_consume_of_no_char {s : State} (h : s.keyHit = true → s.khChar = 0#8) :
    exec .consume s = .next (consume s) :=
  awaiting_of_no_hold (consume_trace_of_no_char h) rfl (by rw [consume_frame])

/-- A character is pushed, and the post-press delay awaited (`42_scanner.md` R130, the spec's decision D27). -/
theorem exec_consume_of_char {s : State} (h : s.keyHit = true) (hc : s.khChar ≠ 0#8)
    (hticks : s.ticks.supplies 115 = true) :
    exec .consume s =
      .next { push s.khChar s with
        keyHit := false, dlyCnt := 0#16, ticks := s.ticks.spend 115, trace := s.trace ++ [.hold 115] } := by
  have hevents : (consume s).trace = s.trace ++ [.hold 115] := by rw [consume_of_char h hc]
  have hheld : holdTime [.hold 115] = 115 := rfl
  rw [exec, execConsume, awaiting_supplied hevents hheld hticks, consume_of_char h hc]

/-- Settles O20, by the three cases of R130. -/
theorem consumePushesAndClears : Obligations.ConsumePushesAndClears := by
  intro s
  refine ⟨fun hidle => ?_, fun hpending hc => ?_, fun hpending hc hticks => ?_⟩
  · rw [exec_consume_of_no_char (by simp [hidle]), consume_of_idle hidle]
  · rw [exec_consume_of_no_char fun _ => hc, consume_of_no_char hpending hc]
  · exact ⟨push s.khChar s, rfl, exec_consume_of_char hpending hc hticks⟩

/-! The key-hit flag (`42_scanner.md` R121). -/

/-- `CONSUME`, and the turn it is part of, end in state Idle. -/
theorem effect_keyHit_of_consumes {i : Instr} (h : i.consumes = true) (s : State) : (effect i s).keyHit = false := by
  cases i with
  | consume => rw [effect, consume_frame]
  | dispatch =>
    obtain ⟨-, -, -, -, -, -, -, hidle, -⟩ := dispatch_frame s
    exact hidle
  | _ => cases h

/-- The one operation that scans without consuming is `SCAN`. -/
theorem eq_scan_of_scans {i : Instr} (hs : i.scans = true) (hc : i.consumes = false) : i = .scan := by
  cases i with
  | scan => rfl
  | dispatch => cases hc
  | _ => cases hs

/-- Where nothing consumes, a pending hit and its record stay: `SCAN` skips its pass, no other operation writes them. -/
theorem effect_keeps_pending {i : Instr} {s : State} (h : s.keyHit = true) (hc : i.consumes = false) :
    (effect i s).keyHit = true ∧ (effect i s).khCode = s.khCode ∧ (effect i s).khChar = s.khChar ∧
    (effect i s).khRow = s.khRow ∧ (effect i s).khCol = s.khCol := by
  cases hs : i.scans with
  | true =>
    obtain rfl := eq_scan_of_scans hs hc
    simp only [effect, scan_of_pending h]
    exact ⟨h, rfl, rfl, rfl, rfl⟩
  | false =>
    obtain ⟨hscan, hhit, -⟩ := effect_onlyWriters i s
    obtain ⟨-, -, -, -, hcode, hchar, hrow, hcol, -⟩ := hscan hs
    exact ⟨(hhit hs hc).trans h, hcode, hchar, hrow, hcol⟩

theorem effect_keeps_idle {i : Instr} {s : State} (h : s.keyHit = false) (hs : i.scans = false) :
    (effect i s).keyHit = false := by
  cases hc : i.consumes with
  | true => exact effect_keyHit_of_consumes hc s
  | false =>
    obtain ⟨-, hhit, -⟩ := effect_onlyWriters i s
    exact (hhit hs hc).trans h

/-- Settles O54: a next state is the operation's effect, up to ticks spent. -/
theorem pendingKeySurvivesUntilConsumed : Obligations.PendingKeySurvivesUntilConsumed := by
  intro i s t h
  rw [exec_next h]
  exact ⟨effect_keeps_idle, fun hc => effect_keyHit_of_consumes hc s, effect_keeps_pending⟩

end Sys2Proof.Machine
end

section
/-! SUPPORT. `PUSH` and `POP` as operations (`43_ringbuffer.md`): what `exec` answers, and what a sequence of either does
to the queue. -/

namespace Sys2Proof.Machine

/-! One operation (R141, R143, R146). -/

theorem exec_push (ch : Byte) (s : State) : exec (.push ch) s = .next (push ch s) := rfl

theorem exec_pop (s : State) : exec .pop s = .next ((pop s).answer (.char (popChar s))) := rfl

theorem exec_pop_of_empty {s : State} (h : s.head = s.tail) : exec .pop s = .next (s.answer (.char 0#8)) := by
  rw [exec_pop, pop_of_empty h, popChar_of_empty h]

/-- The slot the character went to is not the one zeroed after it. -/
theorem push_slot_written (ch : Byte) (s : State) : (push ch s).slot s.tail = ch := by
  have hne : s.tail.val ≠ (nextSlot s.tail).val := fun he => nextSlot_ne s.tail (Fin.ext he.symm)
  rw [State.slot, push_read, if_neg hne, if_pos rfl]

theorem push_read_of_ne {a : Nat} {s : State} (ch : Byte) (htail : a ≠ s.tail.val)
    (hnext : a ≠ (nextSlot s.tail).val) : (push ch s).buf.read a = s.buf.read a := by
  rw [push_read, if_neg hnext, if_neg htail]

/-- Settles O21: the two slots `PUSH` writes are different ones, as `tail` moves. -/
theorem pushWritesTwoSlots : Obligations.PushWritesTwoSlots := by
  intro s ch
  exact ⟨push ch s, exec_push ch s, nextSlot_val s.tail, push_slot_written ch s, push_tail_slot ch s,
    fun _ => push_read_of_ne ch, push_eq ch s⟩

/-- Settles O22, by the two cases of R143. -/
theorem popTakesTheOldest : Obligations.PopTakesTheOldest := by
  intro s
  refine ⟨exec_pop_of_empty, fun hne => ⟨_, exec_pop s, ?_, ?_, ?_, fun a ha => ?_, ?_⟩⟩
  · rw [State.answer_result, popChar_of_ne hne]
  · rw [State.answer_head, pop_of_ne hne]
    exact nextSlot_val s.head
  · rw [State.slot, State.answer_buf, pop_read hne, if_pos rfl]
  · rw [State.answer_buf, pop_read hne, if_neg ha]
  · rw [pop_of_ne hne]
    rfl

/-- Settles O24: `tail` comes to `head`, whose slot is then the one zeroed. -/
theorem tenthUnreadPushEmptiesTheRing : Obligations.TenthUnreadPushEmptiesTheRing := by
  intro s ch hfull
  have hempty : (push ch s).head = (push ch s).tail := push_full hfull
  refine ⟨push ch s, exec_push ch s, hempty.symm, push_head ch s, ?_, exec_pop_of_empty hempty⟩
  rw [hempty]
  exact push_tail_slot ch s

/-! Many pushes: each puts its character last in the queue, but every tenth empties it (R146, R147). -/

theorem execAll_push (cs : List Byte) (s : State) :
    execAll (cs.map Instr.push) s = .next (effectAll (cs.map Instr.push) s) := by
  induction cs generalizing s with
  | nil => rfl
  | cons ch cs ih => exact ih (push ch s)

theorem effectAll_push_append (cs : List Byte) (ch : Byte) (s : State) :
    effectAll ((cs ++ [ch]).map Instr.push) s = push ch (effectAll (cs.map Instr.push) s) := by
  rw [List.map_append, effectAll, List.foldl_append]
  rfl

/-- What is left of a list when its tens are dropped, with one more at the end. -/
theorem drop_tens_append {α : Type} (xs : List α) (x : α) :
    (xs ++ [x]).drop ((xs ++ [x]).length - (xs ++ [x]).length % 10) =
      if xs.length % 10 = 9 then [] else xs.drop (xs.length - xs.length % 10) ++ [x] := by
  have hlength : (xs ++ [x]).length = xs.length + 1 := List.length_append
  split
  case isTrue hnine =>
    refine List.drop_eq_nil_of_le ?_
    omega
  case isFalse hless =>
    have hstart : (xs ++ [x]).length - (xs ++ [x]).length % 10 = xs.length - xs.length % 10 := by omega
    rw [hstart, List.drop_append_of_le_length (Nat.sub_le _ _)]

/-- After `K` pushes onto an empty ring its last `K mod 10` characters are queued. -/
theorem queued_after_pushes {s : State} (h : s.head = s.tail) (cs : List Byte) :
    (effectAll (cs.map Instr.push) s).queued = cs.drop (cs.length - cs.length % 10) := by
  induction cs using List.reverseRecOn with
  | nil => exact queued_of_empty h
  | append_singleton cs ch ih =>
    rw [effectAll_push_append, drop_tens_append]
    generalize effectAll (cs.map Instr.push) s = t at ih ⊢
    have hunread : t.unread = cs.length % 10 := by
      rw [← queued_length, ih, List.length_drop]
      omega
    split
    case isTrue hnine => exact queued_of_empty (push_full (hunread.trans hnine))
    case isFalse hless =>
      have hroom : t.unread < 9 := by omega
      rw [push_queued hroom, ih]

/-! Many pops (R145). -/

/-- One `POP` for each queued character gives them in order, and the next one 0. -/
theorem returned_pops {s : State} {cs : List Byte} (h : s.queued = cs) :
    returned (List.replicate (cs.length + 1) .pop) s = (cs ++ [0#8]).map CmdResult.char := by
  induction cs generalizing s with
  | nil =>
    have hempty : s.head = s.tail := s.unread_eq_zero.mp (by rw [← queued_length, h]; rfl)
    simp [returned, exec_pop_of_empty hempty]
  | cons ch cs ih =>
    have hne : s.head ≠ s.tail := fun he => by simp [queued_of_empty he] at h
    rw [queued_of_ne hne] at h
    obtain ⟨rfl, hrest⟩ := List.cons.inj h
    have hnext : ((pop s).answer (.char (popChar s))).queued = cs := hrest
    rw [List.length_cons, List.replicate_succ, returned, exec_pop]
    exact congrArg _ (ih hnext)

/-- Settles O23: the pushes leave the last `K mod 10` characters queued, and the pops take the queue. -/
theorem ringDeliversTheLastPushesModuloTen : Obligations.RingDeliversTheLastPushesModuloTen := by
  intro s cs hempty
  refine ⟨_, execAll_push cs s, ?_⟩
  have hlength : (cs.drop (cs.length - cs.length % 10)).length = cs.length % 10 := by
    rw [List.length_drop]
    omega
  have hpops := returned_pops (queued_after_pushes hempty cs)
  rwa [hlength] at hpops

end Sys2Proof.Machine
end

section
/-! SUPPORT. The transmitter with enough ticks (`44_transmitter.md` R161 to R168), and what a receiver reads of a frame
(R170). -/

namespace Sys2Proof.Machine

/-- Settles O25, by the closed form of the operation. -/
theorem lineIdleRaisesBothLines : Obligations.LineIdleRaisesBothLines := by
  intro s hticks
  rw [exec_eq, effect, awaiting_supplied (lineIdle_trace s) holdTime_idleEvents hticks, lineIdle_eq]
  rfl

/-- Settles O26, by the closed form of the operation. -/
theorem sendStartPrimesBothLines : Obligations.SendStartPrimesBothLines := by
  intro s hticks
  rw [exec_eq, effect, awaiting_supplied (sendStart_trace s) holdTime_startEvents hticks, sendStart_eq]
  rfl

/-- Settles O27, by the closed form of the operation. -/
theorem sendBitClocksOneBit : Obligations.SendBitClocksOneBit := by
  intro s b hticks
  rw [exec_eq, effect, awaiting_supplied (sendBit_trace b s) (holdTime_bitEvents b) hticks, sendBit_eq]
  rfl

/-- Settles O28, by the closed form of the bit loop. -/
theorem sendByteSendsMsbFirst : Obligations.SendByteSendsMsbFirst := by
  intro s v hticks
  rw [exec_eq, effect, awaiting_supplied (sendByte_trace v s) (holdTime_byteEvents v) hticks, sendByte_eq]

/-- A whole frame, with ticks for its holds (R168). -/
theorem exec_sendKey_supplied {s : State} (v : Byte) (hticks : s.ticks.supplies 76 = true) :
    exec (.sendKey v) s = .next { sendKey v s with ticks := s.ticks.spend 76 } := by
  rw [exec_eq, effect, awaiting_supplied (sendKey_trace v s) (holdTime_frameEvents v) hticks]

/-- Settles O29, by the closed form of a frame. -/
theorem sendKeySendsOneFrame : Obligations.SendKeySendsOneFrame := by
  intro s v hticks
  rw [exec_sendKey_supplied v hticks, sendKey_eq]

/-! The receiver: one lemma per phase of a frame, from any levels before it. -/

/-- The idle preamble only raises the lines: no falling edge, and the levels before it are forgotten. -/
theorem fallingSamples_idleEvents (data clk : Level) (evs : List Event) :
    fallingSamples data clk (idleEvents ++ evs) = fallingSamples .high .high evs := by
  cases clk <;> rfl

/-- The start sequence has one falling edge, after the data line went LOW. -/
theorem fallingSamples_startEvents (data clk : Level) (evs : List Event) :
    fallingSamples data clk (startEvents ++ evs) = .low :: fallingSamples .low .low evs := by
  cases clk <;> rfl

/-- A data bit has one falling edge, with the data line at the bit's level. -/
theorem fallingSamples_bitEvents (b : Bool) (data clk : Level) (evs : List Event) :
    fallingSamples data clk (bitEvents b ++ evs) = levelOf b :: fallingSamples (levelOf b) .low evs := by
  cases clk <;> rfl

theorem fallingSamples_bits (bits : List Bool) (data clk : Level) :
    fallingSamples data clk (bits.flatMap bitEvents) = bits.map levelOf := by
  induction bits generalizing data clk with
  | nil => rfl
  | cons b bits ih => rw [List.flatMap_cons, fallingSamples_bitEvents, ih, List.map_cons]

theorem fallingSamples_frameEvents (v : Byte) (data clk : Level) :
    fallingSamples data clk (frameEvents v) = .low :: (bitsMsbFirst v).map levelOf := by
  rw [frameEvents, fallingSamples_idleEvents, byteEvents, fallingSamples_startEvents, fallingSamples_bits]

/-- Bit `n`, shifted in below the bits above it, gives the bits from `n` on. -/
theorem shiftIn_level (v : Byte) (n : Nat) :
    (v >>> (n + 1)) <<< 1 ||| (if levelOf (v.getLsbD n) = .high then 1#8 else 0#8) = v >>> n := by
  have hbit : (if levelOf (v.getLsbD n) = .high then 1#8 else 0#8) = (BitVec.ofBool (v.getLsbD n)).setWidth 8 := by
    cases v.getLsbD n <;> rfl
  rw [hbit]
  ext i hi
  cases i with
  | zero => simp
  | succ i => simp [Nat.add_assoc, Nat.add_comm 1 i]

/-- The eight levels of a byte's bits give the byte back: after each level the receiver holds the bits sent so far. -/
theorem byteOfLevels_bitsMsbFirst (v : Byte) : byteOfLevels ((bitsMsbFirst v).map levelOf) = v := by
  have hstart : 0#8 = v >>> 8 := (BitVec.ushiftRight_eq_zero (Nat.le_refl 8)).symm
  rw [byteOfLevels]
  conv_lhs => arg 2; rw [hstart]
  simp only [bitsMsbFirst, List.map_cons, List.map_nil, List.foldl_cons, List.foldl_nil, shiftIn_level,
    BitVec.ushiftRight_zero]

/-- Settles O31: the levels read are LOW and the byte's bits, bit 7 first. -/
theorem receiverReadsTheByteSent : Obligations.ReceiverReadsTheByteSent := by
  intro s v hticks
  refine ⟨_, (bitsMsbFirst v).map levelOf, exec_sendKey_supplied v hticks, ?_, rfl, byteOfLevels_bitsMsbFirst v⟩
  have htrace : ({ sendKey v s with ticks := s.ticks.spend 76 } : State).trace = s.trace ++ frameEvents v :=
    sendKey_trace v s
  rw [newEvents_of_trace htrace]
  exact fallingSamples_frameEvents v s.data s.clock

end Sys2Proof.Machine
end

section
/-! SUPPORT. `DRAIN`, `DISPATCH` and `BOOT` as operations (`45_dispatch.md` R181, R183, R185): what `exec` answers in terms
of their parts, and with enough ticks. -/

namespace Sys2Proof.Machine

/-! Operations one after another: the first, then the rest. -/

theorem execAll_singleton (i : Instr) (s : State) : execAll [i] s = exec i s := by
  rw [execAll]
  cases exec i s <;> rfl

theorem execAll_cons_of_next {i : Instr} {is : List Instr} {s u : State} (h : exec i s = .next u) :
    execAll (i :: is) s = execAll is u := by
  rw [execAll, h]

/-- A sequence that answers a next state has answered one after its first operation. -/
theorem execAll_cons_next {i : Instr} {is : List Instr} {s t : State} (h : execAll (i :: is) s = .next t) :
    ∃ u, exec i s = .next u ∧ execAll is u = .next t := by
  rw [execAll] at h
  cases hi : exec i s with
  | next u => exact ⟨u, rfl, by rwa [hi] at h⟩
  | fault r => rw [hi] at h; cases h
  | refused r => rw [hi] at h; cases h

/-! `DRAIN` (R181). -/

theorem pop_result (s : State) : (pop s).result = s.result := congrArg Outer.result (pop_outer s)

theorem exec_drain_of_stop {s : State} (h : popChar s = 0#8) : exec .drain s = .next (pop s) := by
  have hpop : drain s = pop s := by rw [drain_eq, if_pos h]
  have hsilent : (drain s).trace = s.trace ++ [] := by rw [hpop, pop_trace, List.append_nil]
  rw [exec, execDrain, awaiting_of_no_hold hsilent rfl (drain_ticks s), hpop]

/-- A character that is not 0 is popped, sent, and the rest drained, stops included. -/
theorem exec_drain_of_send {s : State} (h : popChar s ≠ 0#8) :
    exec .drain s = execAll [.sendKey (popChar s), .drain] (pop s) := by
  have heffect : effect .drain s = id (effectAll [.sendKey (popChar s), .drain] (pop s)) := by
    rw [effect, drain_eq, if_neg h]
    rfl
  have hsame := awaiting_map heffect ⟨(pop_trace s).symm, (pop_ticks s).symm⟩ (fun _ => rfl) fun _ _ => rfl
  rwa [onNext_id, ← exec_eq, ← execAll_eq] at hsame

/-- Settles O33, by the two outcomes of `POP`. -/
theorem drainIsTheLoopOfPopAndSend : Obligations.DrainIsTheLoopOfPopAndSend := by
  intro s t ch hpop hch
  obtain rfl : (pop s).answer (.char (popChar s)) = t := Host.Outcome.next.inj hpop
  obtain rfl : popChar s = ch := CmdResult.char.inj hch
  rw [← pop_result, answer_answer_self]
  refine ⟨exec_drain_of_stop, fun hne u hsend => ?_⟩
  rw [exec_drain_of_send hne, execAll_cons_of_next hsend, execAll_singleton]

/-- The drain with ticks for its frames. -/
theorem exec_drain_supplied {s : State} (hticks : s.ticks.supplies (76 * s.toSend.length) = true) :
    exec .drain s = .next { drain s with ticks := s.ticks.spend (76 * s.toSend.length) } := by
  rw [exec, execDrain, awaiting_supplied (drain_trace s) (holdTime_frames s.toSend) hticks]

/-- Settles O34: the frames are those of the drain's trace, the ring is what its loop leaves, and the rest is as after the
last frame, or untouched where there was none. -/
theorem drainSendsTheQueueInOrder : Obligations.DrainSendsTheQueueInOrder := by
  intro s hticks
  obtain ⟨hhead, hread⟩ := drain_ring s
  obtain ⟨hnone, hlast⟩ := drain_frame s
  refine ⟨_, exec_drain_supplied hticks, toSend_length_le s, drain_trace s, rfl, hhead, drain_tail s,
    fun hnonzero => (drain_head_of_nonzero hnonzero).trans (drain_tail s).symm, fun n hn => ?_, fun a ha => ?_,
    fun hnil => ?_, fun v hv => ?_⟩
  · rw [hread, if_pos ⟨n, hn, rfl⟩]
  · rw [hread, if_neg fun ⟨n, hn, he⟩ => ha n hn he]
  · rw [hnone hnil, hnil, List.length_nil, TickSource.spend_zero]
  · rw [hlast v hv]

/-! `DISPATCH` (R183). -/

/-- Settles O35, by the row of `DISPATCH` in R81. -/
theorem dispatchIsScanConsumeDrain : Obligations.DispatchIsScanConsumeDrain := by
  intro s t1 t2 t3 hscan hconsume hdrain
  rw [exec_dispatch_eq, execAll_cons_of_next hscan, execAll_cons_of_next hconsume, execAll_singleton, hdrain, onNext]

theorem holdTime_scan (s : State) : holdTime (if s.keyHit then [] else passEvents (s.samples 8)) = 0 := by
  split <;> simp

/-- The longest a turn can wait: the post-press delay and nine frames. -/
theorem dispatch_holdTime_le (s : State) : holdTime (newEvents s (dispatch s)) ≤ 115 + 76 * 9 := by
  have hframes := toSend_length_le (consume (scan s))
  rw [newEvents_of_trace (dispatch_trace s), holdTime_append, holdTime_append, holdTime_frames, holdTime_scan]
  have hdelay : holdTime (if (scan s).keyHit && (scan s).khChar != 0#8 then [.hold 115] else []) ≤ 115 := by
    split <;> simp
  omega

/-- Settles O37: the ticks suffice for the longest turn, and every turn ends in state Idle at `S_SCAN`. -/
theorem dispatchCompletes : Obligations.DispatchCompletes := by
  intro s hticks
  obtain ⟨-, hresult, -, -, -, -, -, hidle, hseq⟩ := dispatch_frame s
  have henough := TickSource.supplies_mono hticks (dispatch_holdTime_le s)
  obtain ⟨-, hnext⟩ | ⟨hfew, -⟩ := awaiting_cases dispatch s
  · exact ⟨_, hnext, hseq, hidle, hresult⟩
  · rw [henough] at hfew
    cases hfew

/-! `BOOT` (R185). -/

/-- Settles O40, by the closed form of the operation. -/
theorem bootSendsTheZeroByte : Obligations.BootSendsTheZeroByte := by
  intro s hticks
  have hevents : (boot s).trace = s.trace ++ ([.hold 1000] ++ frameEvents 0x00#8) := by rw [boot_eq]
  have hheld : holdTime ([.hold 1000] ++ frameEvents 0x00#8) = 1076 := by simp
  rw [exec, execBoot, awaiting_supplied hevents hheld hticks, boot_eq, List.append_assoc]

end Sys2Proof.Machine
end

section
/-! SUPPORT. One turn of the main loop from Idle with nothing queued (`45_dispatch.md` R183, R187): the state it leaves
where the pass latches no character, and where it latches one. -/

namespace Sys2Proof.Machine

theorem drain_of_empty {s : State} (h : s.head = s.tail) : drain s = s := by
  rw [drain_eq, if_pos (popChar_of_empty h), pop_of_empty h]

/-! One character through an empty ring. -/

section
variable {s : State} (hempty : s.head = s.tail)
include hempty

theorem push_head_ne_tail (ch : Byte) : (push ch s).head ≠ (push ch s).tail := by
  rw [push_head, push_tail, hempty]
  exact (nextSlot_ne s.tail).symm

theorem popChar_push (ch : Byte) : popChar (push ch s) = ch := by
  rw [popChar_of_ne (push_head_ne_tail hempty ch), push_head, hempty, push_slot_written]

/-- A character pushed and popped leaves a 0 in its slot and in the next, and no other slot touched. -/
theorem pop_push_read (ch : Byte) (a : Nat) :
    (pop (push ch s)).buf.read a = if a = s.head.val ∨ a = (nextSlot s.head).val then 0#8 else s.buf.read a := by
  rw [pop_read (push_head_ne_tail hempty ch), push_head, push_read, ← hempty]
  by_cases hhead : a = s.head.val <;> simp [hhead]

theorem drain_consume_of_no_char (h : s.keyHit = true → s.khChar = 0#8) :
    drain (consume s) = { s with keyHit := false } := by
  have hconsume : consume s = { s with keyHit := false } := by
    cases hhit : s.keyHit with
    | false => rw [consume_of_idle hhit, ← hhit]
    | true => exact consume_of_no_char hhit (h hhit)
  have hempty' : (consume s).head = (consume s).tail := by rw [hconsume]; exact hempty
  rw [drain_of_empty hempty', hconsume]

/-- The latched character is pushed, popped and sent, and the ring is empty again one slot further. -/
theorem drain_consume_of_char (hhit : s.keyHit = true) (hc : s.khChar ≠ 0#8) :
    drain (consume s) =
      { s with
        keyHit := false, buf := (pop (push s.khChar s)).buf, head := nextSlot s.head, tail := nextSlot s.head
        data := levelOf (s.khChar.getLsbD 0), clock := .low, txSr := s.khChar, bitIdx := 0#4, dlyCnt := 0#16
        trace := s.trace ++ [.hold 115] ++ frameEvents s.khChar } := by
  have hne := push_head_ne_tail hempty s.khChar
  have hconsume := consume_of_char hhit hc
  have hne' : (consume s).head ≠ (consume s).tail := by rw [hconsume]; exact hne
  have hchar : popChar (consume s) = s.khChar := by
    rw [hconsume]
    exact popChar_push hempty s.khChar
  have hpop : pop (consume s) =
      { s with
        keyHit := false, buf := (pop (push s.khChar s)).buf, head := nextSlot s.head, tail := nextSlot s.head
        dlyCnt := 0#16, trace := s.trace ++ [.hold 115] } := by
    rw [pop_of_ne hne', pop_of_ne hne, hconsume, push_eq, hempty]
  have hempty' : (sendKey s.khChar (pop (consume s))).head = (sendKey s.khChar (pop (consume s))).tail := by
    rw [sendKey_eq, hpop]
  rw [drain_eq, hchar, if_neg hc, drain_of_empty hempty', sendKey_eq, hpop]

end

/-! The two kinds of turn. -/

/-- `SCAN` leaves the ring alone. -/
theorem scan_ring (s : State) : (scan s).buf = s.buf ∧ (scan s).head = s.head ∧ (scan s).tail = s.tail := by
  rw [scan_frame]
  exact ⟨rfl, rfl, rfl⟩

section
variable {s : State} (hboundary : s.AtBoundary)
include hboundary

theorem scan_empty_of_boundary : (scan s).head = (scan s).tail := by
  obtain ⟨-, hhead, htail⟩ := scan_ring s
  obtain ⟨-, hempty⟩ := hboundary
  rw [hhead, htail, hempty]

theorem scan_trace_of_boundary : (scan s).trace = s.trace ++ passEvents (s.samples 8) := by
  obtain ⟨hidle, -⟩ := hboundary
  rw [scan_of_idle hidle, scanPass_frame]

/-- A turn without a character sends nothing and waits for nothing. -/
theorem exec_dispatch_of_no_char (h : (scan s).keyHit = true → (scan s).khChar = 0#8) :
    exec .dispatch s = .next { scan s with keyHit := false, seq := .scan } := by
  have hturn : dispatch s = { scan s with keyHit := false, seq := .scan } := by
    rw [dispatch_eq, drain_consume_of_no_char (scan_empty_of_boundary hboundary) h]
    rfl
  have hevents : (dispatch s).trace = s.trace ++ passEvents (s.samples 8) := by
    rw [hturn]
    exact scan_trace_of_boundary hboundary
  obtain ⟨-, -, hticks, -⟩ := dispatch_frame s
  rw [exec, execDispatch, awaiting_of_no_hold hevents (holdTime_passEvents _) hticks, hturn]

/-- A turn with a character waits the post-press delay and sends one frame. -/
theorem exec_dispatch_of_char (hhit : (scan s).keyHit = true) (hc : (scan s).khChar ≠ 0#8)
    (hticks : s.ticks.supplies 191 = true) :
    exec .dispatch s =
      .next { scan s with
        seq := .scan, keyHit := false, buf := (pop (push (scan s).khChar (scan s))).buf
        head := nextSlot s.head, tail := nextSlot s.head
        data := levelOf ((scan s).khChar.getLsbD 0), clock := .low, txSr := (scan s).khChar, bitIdx := 0#4
        dlyCnt := 0#16, ticks := s.ticks.spend 191
        trace := s.trace ++ passEvents (s.samples 8) ++ [.hold 115] ++ frameEvents (scan s).khChar } := by
  have hturn := dispatch_eq s
  obtain ⟨-, hhead, -⟩ := scan_ring s
  rw [drain_consume_of_char (scan_empty_of_boundary hboundary) hhit hc, scan_trace_of_boundary hboundary, hhead] at hturn
  have hevents : (dispatch s).trace =
      s.trace ++ (passEvents (s.samples 8) ++ [.hold 115] ++ frameEvents (scan s).khChar) := by
    rw [hturn]
    simp only [State.goto_trace, List.append_assoc]
  have hheld : holdTime (passEvents (s.samples 8) ++ [.hold 115] ++ frameEvents (scan s).khChar) = 191 := by simp
  rw [exec, execDispatch, awaiting_supplied hevents hheld hticks, hturn]
  rfl

end

/-- Settles O36: the two kinds of turn. -/
theorem dispatchReturnsToTheBoundary : Obligations.DispatchReturnsToTheBoundary := by
  intro s hboundary hticks
  by_cases h : (scan s).keyHit = true ∧ (scan s).khChar ≠ 0#8
  · obtain ⟨hhit, hc⟩ := h
    exact ⟨_, exec_dispatch_of_char hboundary hhit hc hticks, ⟨rfl, rfl⟩, rfl,
      .inr ⟨(scan s).khChar, hc, nextSlot_val s.head, rfl⟩⟩
  · have hnone : (scan s).keyHit = true → (scan s).khChar = 0#8 := by simpa using h
    obtain ⟨-, hhead, -⟩ := scan_ring s
    exact ⟨_, exec_dispatch_of_no_char hboundary hnone, ⟨rfl, scan_empty_of_boundary hboundary⟩, rfl,
      .inl ⟨hhead, scan_trace_of_boundary hboundary⟩⟩

/-- Settles O38: the pass latches the key with its character, and the turn is one with a character. -/
theorem dispatchSendsTheKeyPressed : Obligations.DispatchSendsTheKeyPressed := by
  intro s k ch hboundary hticks hlast hch hne
  have hscan := scan_of_idle hboundary.1
  obtain ⟨-, -, -, -, -, hhit⟩ := scanPass_outcome hboundary.1 rfl
  rw [hlast, ← hscan] at hhit
  obtain ⟨hrow, hcol, hcode⟩ := scanPass_record hlast
  have hchar := scanPass_char hlast
  rw [← hch] at hchar
  rw [← hscan] at hrow hcol hcode hchar
  have hread := pop_push_read (scan_empty_of_boundary hboundary) ch
  obtain ⟨hbuf, hhead, -⟩ := scan_ring s
  rw [hbuf, hhead] at hread
  have hexec := exec_dispatch_of_char hboundary hhit (hchar ▸ hne) hticks
  rw [hchar] at hexec
  refine ⟨_, hexec, rfl, rfl, hrow, hcol, hcode, hchar, nextSlot_val s.head, rfl, ?_, ?_, fun a hthis hnext => ?_,
    rfl, rfl, rfl, rfl, rfl, rfl⟩
  · exact (hread _).trans (if_pos (.inl rfl))
  · exact (hread _).trans (if_pos (.inr rfl))
  · exact (hread a).trans (if_neg (not_or.mpr ⟨hthis, hnext⟩))

/-- Settles O39: a pass without a press latches nothing and clears the flags. -/
theorem dispatchWithNoKeyChangesLittle : Obligations.DispatchWithNoKeyChangesLittle := by
  intro s hboundary hnone
  have hidle := hboundary.1
  obtain ⟨hshift, hctrl, hfunc, hlock, hret, hhit⟩ := scanPass_outcome hidle hnone.symm
  have hlast : lastKey (presses s.params (s.samples 8)) = none := by rw [hnone, lastKey_nil]
  obtain ⟨hrow, hcol, hcode, hchar⟩ := scanPass_no_record hidle hlast
  have hscan := (scan_of_idle hidle).trans (scanPass_frame s)
  rw [hshift, hctrl, hfunc, hlock, hret, hhit, hrow, hcol, hcode, hchar] at hscan
  have hstill : (scan s).keyHit = false := by rw [hscan]; rfl
  have hexec := exec_dispatch_of_no_char hboundary (by simp [hstill])
  rw [hscan] at hexec
  refine ⟨_, hexec, rfl, ?_⟩
  simp [hidle, shiftSeen, rowResult]

end Sys2Proof.Machine
end

section
/-! SUPPORT. The running block (`45_dispatch.md` R187): steps of the sequencer one after another, with no command word
issued and no reset due, make `BOOT`, `DISPATCH` and `DRAIN`. -/

namespace Sys2Proof.Machine

/-- A next state that `f` was applied to. -/
theorem onNext_next {f : State → State} {o : Host.Outcome State Fault Refusal} {t : State}
    (h : onNext f o = .next t) : ∃ u, o = .next u ∧ f u = t := by
  cases o with
  | next u => exact ⟨u, rfl, Host.Outcome.next.inj h⟩
  | fault r => cases h
  | refused r => cases h

/-! Runs. -/

theorem run_succ_of_step {k : Nat} {s u : State} (h : step s = .next u) :
    Sys2Proof.core.run (k + 1) s = Sys2Proof.core.run k u := by
  have hstep : Sys2Proof.core.step s = .next u := h
  simp only [Host.Core.run, hstep]

theorem run_one_of_step {s u : State} (h : step s = .next u) : Sys2Proof.core.run 1 s = .next u :=
  run_succ_of_step (k := 0) h

/-- The next step is the sequencer's own: no reset is due and no command word issued. -/
def State.OwnTurn (s : State) : Prop := s.rst = none ∧ s.cmds = []

theorem step_of_own_turn {s : State} (h : s.OwnTurn) : step s = awaiting sequencerTurn s := step_of_sequencer h.1 h.2

/-- No operation takes a turn away from the sequencer. -/
theorem exec_keeps_own_turn {i : Instr} {s t : State} (hown : s.OwnTurn) (h : exec i s = .next t) : t.OwnTurn := by
  have henv := effect_env i s
  rw [exec_next h]
  exact ⟨(congrArg Env.rst henv).trans hown.1, (congrArg Env.cmds henv).trans hown.2⟩

theorem State.OwnTurn.goto {s : State} (h : s.OwnTurn) (q : Seq) : (s.goto q).OwnTurn := h

/-- An operation that does not read `seq` answers alike from every sequencer state. -/
theorem exec_goto {i : Instr} {s : State} {q : Seq} (h : effect i (s.goto q) = (effect i s).goto q) :
    exec i (s.goto q) = onNext (fun t => t.goto q) (exec i s) := by
  rw [exec_eq, exec_eq]
  exact awaiting_map h ⟨rfl, rfl⟩ (fun _ => rfl) fun _ _ => rfl

theorem exec_sendKey_goto (v : Byte) (s : State) (q : Seq) :
    exec (.sendKey v) (s.goto q) = onNext (fun t => t.goto q) (exec (.sendKey v) s) := by
  refine exec_goto ?_
  rw [effect, sendKey_eq, sendKey_eq]
  rfl

theorem consume_goto (s : State) (q : Seq) : consume (s.goto q) = (consume s).goto q := by
  rw [State.goto_eq, consume_withOuter, ← consume_outer]
  rfl

theorem drain_goto (s : State) (q : Seq) : drain (s.goto q) = (drain s).goto q := by
  rw [State.goto_eq, drain_withOuter, ← drain_outer]
  rfl

theorem exec_drain_goto (s : State) (q : Seq) :
    exec .drain (s.goto q) = onNext (fun t => t.goto q) (exec .drain s) :=
  exec_goto (i := .drain) (drain_goto s q)

/-! `BOOT` (R185): two steps. -/

theorem run_boot {s t : State} (hown : s.OwnTurn) (hseq : s.seq = .bootDelay) (h : exec .boot s = .next t) :
    Sys2Proof.core.run 2 s = .next t := by
  rw [exec_boot_eq] at h
  obtain ⟨v, hall, rfl⟩ := onNext_next h
  have hparts : execAll [.delay Config.bootDel, .sendKey Config.bootByte] s = .next v := hall
  obtain ⟨u, hdelay, hrest⟩ := execAll_cons_next hparts
  rw [execAll_singleton] at hrest
  have hown' := (exec_keeps_own_turn hown hdelay).goto .bootSend
  have hwait : step s = .next (u.goto .bootSend) := by
    rw [step_of_own_turn hown, awaiting_turn_of_goto (sequencerTurn_of_bootDelay hseq), hdelay, onNext]
  have hsend : step (u.goto .bootSend) = .next (v.goto .scan) := by
    rw [step_of_own_turn hown', awaiting_turn_of_goto (sequencerTurn_of_bootSend (State.goto_seq u _)),
      exec_sendKey_goto, hrest]
    rfl
  rw [run_succ_of_step hwait, run_one_of_step hsend]

/-! The drain (R181): one step for each character, and one for the `POP` of 0 that ends it. -/

theorem step_of_drain_stop {s : State} (hown : s.OwnTurn) (hseq : s.seq = .drain) (h : popChar s = 0#8) :
    step s = .next ((pop s).goto .scan) := by
  obtain ⟨hstop, -⟩ := awaiting_turn_of_drain hseq (exec_pop s) rfl
  rw [step_of_own_turn hown, hstop h, ← pop_result, answer_goto_answer_self]

theorem step_of_drain_send {s : State} (hown : s.OwnTurn) (hseq : s.seq = .drain) (h : popChar s ≠ 0#8) :
    step s = exec (.sendKey (popChar s)) (pop s) := by
  obtain ⟨-, hsend⟩ := awaiting_turn_of_drain hseq (exec_pop s) rfl
  rw [step_of_own_turn hown, hsend h, ← pop_result, answer_answer_self]

/-- The steps of a drain, at most `n` where fewer than `n` characters are queued, are `DRAIN` and the move to `S_SCAN`. -/
theorem run_drain {n : Nat} {s t : State} (hfew : s.unread < n) (hown : s.OwnTurn) (hseq : s.seq = .drain)
    (h : exec .drain s = .next t) : ∃ k, 1 ≤ k ∧ k ≤ n ∧ Sys2Proof.core.run k s = .next (t.goto .scan) := by
  induction n generalizing s with
  | zero => exact absurd hfew (Nat.not_lt_zero _)
  | succ n ih =>
    by_cases hc : popChar s = 0#8
    · rw [exec_drain_of_stop hc] at h
      obtain rfl := Host.Outcome.next.inj h
      exact ⟨1, Nat.le_refl 1, by omega, run_one_of_step (step_of_drain_stop hown hseq hc)⟩
    · rw [exec_drain_of_send hc] at h
      obtain ⟨u, hsend, hrest⟩ := execAll_cons_next h
      rw [execAll_singleton] at hrest
      have hstep := (step_of_drain_send hown hseq hc).trans hsend
      have hpopped := pop_unread (head_ne_tail_of_popChar hc)
      have hunread : u.unread = (pop s).unread := by
        rw [exec_next hsend]
        exact sendKey_unread (popChar s) (pop s)
      have hseq' : u.seq = .drain := by
        rw [exec_next hsend, effect, sendKey_eq, pop_eq]
        exact hseq
      have hown' : u.OwnTurn := exec_keeps_own_turn (by rw [pop_eq]; exact hown) hsend
      obtain ⟨k, -, hk, hrun⟩ := ih (by omega) hown' hseq' hrest
      exact ⟨k + 1, by omega, by omega, (run_succ_of_step hstep).trans hrun⟩

/-! `DISPATCH` (R183): a step for `SCAN`, one for `CONSUME`, and those of the drain. -/

theorem step_of_scan {s : State} (hown : s.OwnTurn) (hseq : s.seq = .scan) : step s = .next ((scan s).goto .consume) := by
  have hresult : (scan s).result = s.result := congrArg Outer.result (scan_outer s)
  rw [step_of_own_turn hown, awaiting_turn_of_scan hseq, ← hresult]
  rfl

/-- `SCAN` waits for nothing, so a turn is what comes after it, stops included. -/
theorem exec_dispatch_after_scan (s : State) :
    exec .dispatch s = onNext (fun t => t.goto .scan) (execAll [.consume, .drain] ((scan s).goto .consume)) := by
  have hticks : (scan s).ticks = s.ticks := congrArg Outer.ticks (scan_outer s)
  have hsame : ((scan s).goto .consume).withTicks s.ticks = (scan s).goto .consume := by
    rw [← hticks]
    rfl
  obtain ⟨evs, hrest⟩ := effectAll_trace [.consume, .drain] ((scan s).goto .consume)
  have hcomp := awaiting_comp_of_supplied (f := fun s => (scan s).goto .consume) (g := effectAll [.consume, .drain])
    (scan_trace s) hrest (commutes_withTicks (effectAll_withEnv _) _) (by rw [holdTime_scan, TickSource.supplies_zero])
  rw [holdTime_scan, TickSource.spend_zero, hsame] at hcomp
  have heffect : effect .dispatch s = (effectAll [.consume, .drain] ((scan s).goto .consume)).goto .scan := by
    have hparts : effectAll [.consume, .drain] ((scan s).goto .consume) = drain (consume ((scan s).goto .consume)) := rfl
    rw [hparts, consume_goto, drain_goto, effect, dispatch_eq]
    rfl
  rw [execAll_eq, ← hcomp, exec_eq]
  exact awaiting_map heffect ⟨rfl, rfl⟩ (fun _ => rfl) fun _ _ => rfl

/-- Settles O42: the parts of the turn one after another, each as the steps that make it. -/
theorem sequencerTurnIsDispatch : Obligations.SequencerTurnIsDispatch := by
  intro s t hseq hrst hcmds h
  rw [exec_dispatch_after_scan] at h
  obtain ⟨v, hparts, rfl⟩ := onNext_next h
  obtain ⟨u, hconsume, hdrain⟩ := execAll_cons_next hparts
  rw [execAll_singleton] at hdrain
  have hown : s.OwnTurn := ⟨hrst, hcmds⟩
  have hown' : ((scan s).goto .consume).OwnTurn := by rw [scan_frame]; exact hown
  have hown'' := (exec_keeps_own_turn hown' hconsume).goto .drain
  have hstep : step ((scan s).goto .consume) = .next (u.goto .drain) := by
    rw [step_of_own_turn hown', awaiting_turn_of_goto (sequencerTurn_of_consume (State.goto_seq _ _)), hconsume, onNext]
  have hloop : exec .drain (u.goto .drain) = .next (v.goto .drain) := by
    rw [exec_drain_goto, hdrain, onNext]
  obtain ⟨k, hone, hten, hrun⟩ := run_drain (State.unread_lt _) hown'' (State.goto_seq u _) hloop
  refine ⟨k + 1 + 1, by omega, by omega, ?_⟩
  rw [run_succ_of_step (step_of_scan hown hseq), run_succ_of_step hstep, hrun]
  rfl

/-- Settles O43: the two steps of `BOOT`, from any state at `S_BOOT_DELAY` and from the reset state. -/
theorem sequencerBootsFirst : Obligations.SequencerBootsFirst :=
  ⟨fun _ _ hseq hrst hcmds => run_boot ⟨hrst, hcmds⟩ hseq,
    _, run_boot ⟨rfl, rfl⟩ rfl (bootSendsTheZeroByte State.reset rfl), rfl, rfl⟩

/-- A step of a block with ticks and no command word: the operation answers, and both stay so. -/
theorem step_of_forever {s : State} (hticks : s.ticks = .forever) (hcmds : s.cmds = []) :
    ∃ t, step s = .next t ∧ t.ticks = .forever ∧ t.cmds = [] := by
  cases hrst : s.rst with
  | none =>
    have hkept : (sequencerTurn s).cmds = s.cmds := congrArg Env.cmds (sequencerTurn_env s)
    exact ⟨_, (step_of_sequencer hrst hcmds).trans (awaiting_forever sequencerTurn hticks), rfl, hkept.trans hcmds⟩
  | some n =>
    refine ⟨resetDuring n s, step_of_reset hrst, ?_, congrArg List.tail hcmds⟩
    simp [resetDuring, hticks]

/-- Settles O44: one step answers, and the steps of a drain are at most one more than the nine characters a ring can hold. -/
theorem sequencerNeverHalts : Obligations.SequencerNeverHalts := by
  intro s hticks hcmds
  refine ⟨step_of_forever hticks hcmds, fun hseq hrst => ?_⟩
  have hdrain : exec .drain s = .next { drain s with ticks := .forever } := awaiting_forever drain hticks
  obtain ⟨k, hone, hten, hrun⟩ := run_drain s.unread_lt ⟨hrst, hcmds⟩ hseq hdrain
  exact ⟨k, _, hone, hten, hrun, rfl⟩

end Sys2Proof.Machine
end

section
/-! SUPPORT. Exceptions (`60_exceptions.md` R200): no operation raises one, and only a delay can wait for ever. -/

namespace Sys2Proof.Machine

/-- Settles O8: every operation is its effect under `awaiting`, which answers while ticks come, never refuses, and stops
only at the end of a finite tick source; an operation without a delay answers from every state. -/
theorem everyOperationIsTotal : Obligations.EveryOperationIsTotal := by
  intro i s
  refine ⟨fun hticks => ?_, fun r hfault => ?_, fun r => ?_⟩
  · exact ⟨_, (exec_eq i s).trans (awaiting_forever (effect i) hticks)⟩
  · obtain ⟨hstopped, hleft⟩ := awaiting_fault ((exec_eq i s).symm.trans hfault)
    refine ⟨hstopped, ?_, hleft⟩
    cases hdelays : i.delays with
    | true => rfl
    | false =>
      rw [exec_of_not_delays hdelays] at hfault
      cases hfault
  · rw [exec_eq]
    exact awaiting_ne_refused (effect i) s r

end Sys2Proof.Machine
end

section
/-! SUPPORT. Two passes with the same samples (`70_reset_and_hazards.md` R232, R233): what a character depends on under
`at_latch`, and a key held through two turns. -/

namespace Sys2Proof.Machine

/-- Settles O19: under `at_latch` the character depends on the presses up to the key, and on nothing after it. -/
theorem laterModifiersMissALatchedKey : Obligations.LaterModifiersMissALatchedKey := by
  intro s u k hs hu hparams hlatch hlock hkey hkey' hagree
  obtain ⟨t, ht, htchar⟩ := scanResolvesAtTheResolvePoint s k hs hkey
  obtain ⟨v, hv, hvchar⟩ := scanResolvesAtTheResolvePoint u k hu hkey'
  have hupTo : ∀ ps, resolvingPresses s.params ps = upToLastKey ps := fun ps => by rw [resolvingPresses, hlatch]
  rw [hupTo, hagree] at htchar
  rw [← hparams, hupTo, hparams, ← hlock] at hvchar
  exact ⟨t, v, ht, hv, by rw [htchar, hvchar, hparams]⟩

/-- While samples are queued a pass takes no free value. -/
theorem samples_of_queued {s : State} {n : Nat} (h : n ≤ s.cols.length) : s.samples n = s.cols.take n := by
  refine List.ext_getElem (by simp [State.samples, h]) fun k hk _ => ?_
  have hlt : k < s.cols.length := by
    simp only [State.samples, List.length_map, List.length_range] at hk
    omega
  simp [State.samples, hlt]

/-- What a turn from Idle leaves to the pass of the next: the tables, the samples it did not take, and shift-lock. -/
theorem exec_dispatch_pass_inputs {s t : State} (hidle : s.keyHit = false) (h : exec .dispatch s = .next t) :
    t.params = s.params ∧ t.cols = s.cols.drop 8 ∧
    t.shiftLock = (s.shiftLock || seen Config.codeShiftLock (presses s.params (s.samples 8))) := by
  have hparams : (scanPass s).params = s.params := by rw [scanPass_frame]
  have hcols : (scanPass s).cols = s.cols.drop 8 := by rw [scanPass_frame]
  obtain ⟨-, -, -, hlock, -⟩ := scanPass_outcome hidle rfl
  rw [exec_next h, effect, dispatch_eq, drain_frame_all, consume_frame, scan_of_idle hidle]
  generalize scanPass s = v at hparams hcols hlock ⊢
  exact ⟨hparams, hcols, hlock⟩

/-- Settles O57: the first turn ends at a boundary with the pass's inputs as they were, so the second repeats it. -/
theorem heldKeyRepeats : Obligations.HeldKeyRepeats := by
  intro s k ch hboundary hticks hagain hlength hnoLock hlast hch hne
  obtain ⟨hfirst, hsecond⟩ := Bool.and_eq_true_iff.mp ((TickSource.supplies_add s.ticks 191 191).symm.trans hticks)
  obtain ⟨t, hturn, htrace, hidle, -, -, -, -, -, htail, -, -, -, -, -, -, -, -, hspent⟩ :=
    dispatchSendsTheKeyPressed s k ch hboundary hfirst hlast hch hne
  obtain ⟨hparams, hcols, hlock⟩ := exec_dispatch_pass_inputs hboundary.1 hturn
  rw [hnoLock, Bool.or_false] at hlock
  rw [hagain] at hcols
  have hsamples : t.samples 8 = s.samples 8 := by
    have height : (s.samples 8).length = 8 := by rw [← hagain, List.length_drop, hlength]
    rw [samples_of_queued (by rw [hcols, height]), hcols, List.take_of_length_le (by rw [height])]
  rw [← hparams, ← hsamples] at hlast hch
  rw [← hlock] at hch
  rw [← hspent] at hsecond
  obtain ⟨v, hturn', htrace', -⟩ := dispatchSendsTheKeyPressed t k ch ⟨hidle, htail.symm⟩ hsecond hlast hch hne
  refine ⟨v, ?_, by rw [htrace', htrace, hsamples]⟩
  rw [execAll_cons_of_next hturn, execAll_singleton, hturn']

end Sys2Proof.Machine
end

section
/-! SUPPORT. Reset in mid-operation (`10_state.md` R30, `70_reset_and_hazards.md` R239): the events of the operation it
abandons, and which of them stay in the trace. -/

namespace Sys2Proof.Machine

/-- What commutes with every change of the environment's fields appends the same events under each. -/
theorem trace_of_commutes {op : State → State} (hop : ∀ s e, op (s.withEnv e) = (op s).withEnv e) (s : State)
    (e : Env) : (op (s.withEnv e)).trace = (op s).trace := by
  rw [hop]
  rfl

/-- The events of which a reset keeps the first are those the operation appends in any run, since they depend neither
on the environment `e` that `turnEvents` runs it in nor on the environment `e'` of the run to `u`. -/
theorem trace_eq_append_turnEvents {op : State → State} (hop : ∀ s e, op (s.withEnv e) = (op s).withEnv e)
    {s u : State} {e e' : Env} (hturn : turn { s with ticks := .forever } = awaiting op (s.withEnv e))
    (he : e.ticks = .forever) (hu : awaiting op (s.withEnv e') = .next u)
    (hgrows : ∃ evs, (op s).trace = s.trace ++ evs) : u.trace = s.trace ++ turnEvents s := by
  obtain ⟨evs, hevs⟩ := hgrows
  have hkept : turnEvents s = evs := by
    rw [turnEvents, hturn, awaiting_forever op he]
    exact newEvents_of_trace ((trace_of_commutes hop s e).trans hevs)
  have htrace : u.trace = (op s).trace := by
    rw [awaiting_next hu]
    exact trace_of_commutes hop s e'
  rw [htrace, hevs, hkept]

theorem turn_of_command {s : State} {w : CmdWord} {rest : List CmdWord} {i : Instr} (hcmds : s.cmds = w :: rest)
    (hdecode : decode w = .ok i) : turn s = exec i { s with cmds := rest } := by
  simp [turn, hcmds, runCommand, hdecode]

theorem turn_of_sequencer {s : State} (hcmds : s.cmds = []) : turn s = awaiting sequencerTurn s := by
  simp [turn, hcmds]

/-- A step that no reset and no lack of ticks cuts appends the events of which a reset would keep the first. -/
theorem trace_of_undisturbed_step {s u : State} (h : step { s with rst := none, ticks := .forever } = .next u) :
    u.trace = s.trace ++ turnEvents s := by
  obtain ⟨-, w, rest, i, hcmds, hdecode, hexec⟩ | ⟨-, hcmds, hawait⟩ | ⟨n, hrst, -⟩ := step_cases h
  · have hturn : turn { s with ticks := .forever } =
        awaiting (effect i) (s.withEnv { s.env with ticks := .forever, cmds := rest }) :=
      (turn_of_command (s := { s with ticks := .forever }) hcmds hdecode).trans (exec_eq i _)
    rw [exec_eq] at hexec
    exact trace_eq_append_turnEvents (effect_withEnv i) hturn rfl
      (e' := { s.env with rst := none, ticks := .forever, cmds := rest }) hexec (effect_trace i s)
  · have hturn : turn { s with ticks := .forever } =
        awaiting sequencerTurn (s.withEnv { s.env with ticks := .forever }) :=
      turn_of_sequencer (s := { s with ticks := .forever }) hcmds
    exact trace_eq_append_turnEvents sequencerTurn_withEnv hturn rfl
      (e' := { s.env with rst := none, ticks := .forever }) hawait (sequencerTurn_trace s)
  · cases hrst

/-- What is reached of the first `n` events is a prefix of them. -/
theorem reached_take_take (ticks : TickSource) (n : Nat) (evs : List Event) :
    ∃ j, j ≤ n ∧ reached ticks (evs.take n) = evs.take j := by
  obtain ⟨j, hj, hreached⟩ := reached_take ticks (evs.take n)
  have hjn : j ≤ n := hj.trans (List.length_take_le n evs)
  exact ⟨j, hjn, by rw [hreached, List.take_take, Nat.min_eq_left hjn]⟩

/-- Settles O47: with ticks for ever all of the first `n` events are reached, and otherwise a prefix of them that holds
no longer than the ticks last. -/
theorem resetTruncatesTheTrace : Obligations.ResetTruncatesTheTrace := by
  intro s u n hrst hu
  have hcut := resetDuring_trace n s
  have hfull := trace_of_undisturbed_step hu
  refine ⟨_, step_of_reset hrst, fun hforever => ?_, fun m hleft => ?_⟩
  · rw [hcut, hfull, List.take_length_add_append, hforever, reached_forever]
  · obtain ⟨j, hj, hreached⟩ := reached_take_take s.ticks n (turnEvents s)
    refine ⟨j, hj, by rw [hcut, hfull, List.take_length_add_append, hreached], ?_⟩
    rw [newEvents_of_trace hcut, hleft]
    exact reached_time m _

end Sys2Proof.Machine
end
